-- ==== Sys2Proof/Config.lean ====
section
/-!
DEFINITION. The implementation parameters of spec/00_scope.md R5: what an implementation may choose
(`Params`, with the rule's constraints), the choice of this hardware (`Config.params`, the defaults; the
configuration named SC-CORE/X64-I27; assumption 1), and the values State.reset takes for what the spec
leaves to the host (assumptions 2 and 3). Sys2Proof/Machine/Parametric.lean takes the parameters as
an argument; every other definition writes a width by its name below and never as a numeral, so that
another configuration of the core is another three numbers here. No rule of the spec has a free value
(spec/20_memory.md R64), so no constant here is opaque.
-/

namespace Sys2Proof.Config

/-- The parameters an implementation fixes, each with its constraint (spec/00_scope.md R5). `N`, `L` and
`BUDGET` are fixed by a launch, not here (`Params.launchAdmits`). -/
structure Params where
  /-- `XLEN`, the width of a register, of the pc, of `err_info`, of every ALU operand and result. -/
  xlen : Nat
  /-- `IMM_W`, the width of a value field. -/
  immW : Nat
  /-- `STEP_W`, the width of `steps` and of `step_budget`. -/
  stepW : Nat
  two_le_xlen : 2 ≤ xlen
  one_le_immW : 1 ≤ immW
  immW_le : immW ≤ xlen - 1
  one_le_stepW : 1 ≤ stepW

/-- `ILEN = 10 + 2*IMM_W`, the width of an instruction word (spec/30_encoding.md R72). -/
abbrev Params.ilen (c : Params) : Nat := 10 + 2 * c.immW

/-- The largest admitted `N` and `L`, `2^(XLEN-1) - 1` (spec/00_scope.md R5). -/
abbrev Params.maxLength (c : Params) : Nat := 2 ^ (c.xlen - 1) - 1

/-! ### This hardware -/

/-- `XLEN`, the register width (spec/00_scope.md R5). -/
abbrev xlen : Nat := 64

/-- `IMM_W`, the width of a value field (spec/00_scope.md R5). -/
abbrev immW : Nat := 27

/-- `STEP_W`, the width of the step counter and of the budget (spec/00_scope.md R5). -/
abbrev stepW : Nat := 32

/-- The parameters of this hardware; the proofs say that they meet the constraints of spec/00_scope.md
R5. -/
abbrev params : Params where
  xlen := xlen
  immW := immW
  stepW := stepW
  two_le_xlen := by decide
  one_le_immW := by decide
  immW_le := by decide
  one_le_stepW := by decide

/-- `ILEN = 10 + 2*IMM_W`, the instruction width (spec/30_encoding.md R72). -/
abbrev ilen : Nat := 10 + 2 * immW

/-- The number of bytes an instruction word is serialised to (spec/20_memory.md R53; assumption 10). -/
abbrev wordBytes : Nat := (ilen + 7) / 8

/-- The largest admitted `N` and `L`: `2^(XLEN-1) - 1` (spec/00_scope.md R5). -/
abbrev maxLength : Nat := 2 ^ (xlen - 1) - 1

/-- The budget of a launch that names none (spec/00_scope.md R7, spec/70_reset_and_hazards.md R211). -/
abbrev defaultBudget : Nat := 500000

/-- DESIGN CHOICE (assumption 2, unsafe): how many registers the state after reset has; the spec
gives `N` no default (spec/00_scope.md R5). -/
abbrev resetRegisterCount : Nat := 16

/-- DESIGN CHOICE (assumption 3, unsafe): what a register holds after reset when no host supplied a
value; the spec has no architectural default (spec/10_state.md R37). -/
abbrev resetRegister : Int := 0

end Sys2Proof.Config
end

