-- ==== Sys2Proof/Word.lean ====
section
/-!
DEFINITION. The word types of the hardware, at the widths of Sys2Proof/Config.lean (spec/00_scope.md
R5, R10, R11). A register, the pc and `err_info` are bit vectors read as two's-complement integers: the
spec's `sval` is `BitVec.toInt`, its `uval` is `BitVec.toNat`.
-/

namespace Sys2Proof

/-- An `XLEN`-bit register value (spec/00_scope.md R5, R11). -/
abbrev Word := BitVec Config.xlen

/-- An `ILEN`-bit instruction word (spec/30_encoding.md R72). -/
abbrev IWord := BitVec Config.ilen

/-- An `IMM_W`-bit value field of an instruction word (spec/30_encoding.md R73). -/
abbrev ValueField := BitVec Config.immW

/-- A `STEP_W`-bit unsigned step count (spec/10_state.md R31, R32). -/
abbrev StepCount := BitVec Config.stepW

end Sys2Proof
end

