-- ==== Sys2Proof/Syntax.lean ====
section
/-!
DEFINITION. The decoded level of SC-CORE: opcodes, operands, instructions (spec/30_encoding.md R70,
R71) and the five fault kinds an instruction word or its execution can raise
(spec/60_exceptions.md R180).
-/

namespace Sys2Proof

/-- The closed set of opcodes, the blank instruction included (spec/30_encoding.md R70, R74). -/
inductive Opcode where
  | blank | mov | add | mul | cmp | jmp | jeq | jgt | jlt | halt
  deriving DecidableEq, Repr

/-- A tagged operand; `v` and `idx` are `XLEN`-bit vectors (spec/30_encoding.md R70). -/
inductive Operand where
  /-- Immediate mode `V`: the literal, read-only (spec/40_register_file_and_operands.md R105). -/
  | imm (v : Word)
  /-- Register-direct mode `R`: `registers[idx]` (R106). -/
  | reg (idx : Word)
  /-- Register-pointer mode `P`: `registers[registers[idx]]` (R107). -/
  | ptr (idx : Word)
  deriving DecidableEq, Repr

/-- One constructor per row of spec/opcode_table.json (spec/30_encoding.md R84). -/
inductive Instr where
  | blank
  | mov (dst src : Operand)
  | add (dst src : Operand)
  | mul (dst src : Operand)
  | cmp (op1 op2 : Operand)
  | jmp (target : Operand)
  | jeq (target : Operand)
  | jgt (target : Operand)
  | jlt (target : Operand)
  | halt
  deriving DecidableEq, Repr

/-- The five fault kinds, in the order of their codes 1 to 5 (spec/60_exceptions.md R180). -/
inductive FaultKind where
  | invalidOperandFormat
  | unknownOpcode
  | arityMismatch
  | registerOutOfRange
  | invalidWriteTarget
  deriving DecidableEq, Repr

/-- `raise K(info)` (spec/00_scope.md R15): the kind and the information word of a fault. -/
structure Raise where
  kind : FaultKind
  info : Word
  deriving DecidableEq, Repr

end Sys2Proof
end

