-- ==== Sys2Proof/WellFormed.lean ====
section
/-!
DEFINITION. Which decoded instructions have an encoding: every operand's value fits the `IMM_W`-bit
field (spec/30_encoding.md R77, R89). Every combination of addressing modes is admitted
(spec/41_alu_data.md R120); an immediate destination is legal for the decoder (R84).
-/

namespace Sys2Proof

/-- The number an operand carries: the literal or the register index (spec/30_encoding.md R70). -/
def Operand.value : Operand → Word
  | .imm v => v
  | .reg idx => idx
  | .ptr idx => idx

/-- An operand has an encoding exactly when its number is below `2^IMM_W` (spec/30_encoding.md R89). -/
def Operand.wf (o : Operand) : Bool := decide (o.value.toNat < 2 ^ Config.immW)

/-- The operands in slot order (spec/30_encoding.md R71). -/
def Instr.operands : Instr → List Operand
  | .blank => []
  | .mov dst src => [dst, src]
  | .add dst src => [dst, src]
  | .mul dst src => [dst, src]
  | .cmp op1 op2 => [op1, op2]
  | .jmp target => [target]
  | .jeq target => [target]
  | .jgt target => [target]
  | .jlt target => [target]
  | .halt => []

/-- Every operand of the instruction has an encoding. -/
def Instr.wf (i : Instr) : Bool := i.operands.all Operand.wf

end Sys2Proof
end

