-- ==== Sys2Proof/Decode.lean ====
section
/-!
DEFINITION. The binary level: format `F`, the total decoder and the canonical encoder
(spec/30_encoding.md R72 to R85, R91), and the little-endian image of a word in bytes outside the
core (spec/20_memory.md R53; assumption 10).
-/

namespace Sys2Proof

/-! ### Fields of format `F` (spec/30_encoding.md R73) -/

/-- `iw[3:0]`, the opcode number. -/
def opField (iw : IWord) : BitVec 4 := iw.extractLsb' 0 4

/-- `iw[5:4]`, the number of operand tokens. -/
def cntField (iw : IWord) : BitVec 2 := iw.extractLsb' 4 2

/-- `iw[7:6]`, the addressing mode of operand 1. -/
def m1Field (iw : IWord) : BitVec 2 := iw.extractLsb' 6 2

/-- `iw[9:8]`, the addressing mode of operand 2. -/
def m2Field (iw : IWord) : BitVec 2 := iw.extractLsb' 8 2

/-- `iw[9+IMM_W:10]`, the value field of operand 1. -/
def v1Field (iw : IWord) : ValueField := iw.extractLsb' 10 Config.immW

/-- `iw[9+2*IMM_W:10+IMM_W]`, the value field of operand 2. -/
def v2Field (iw : IWord) : ValueField := iw.extractLsb' (10 + Config.immW) Config.immW

/-! ### Opcode numbers and arities (spec/30_encoding.md R71, R74) -/

/-- The opcode of a number; 10 to 15 name none (spec/30_encoding.md R74, R81). -/
def opcodeOfNumber : Nat → Option Opcode
  | 0 => some .blank
  | 1 => some .mov
  | 2 => some .add
  | 3 => some .mul
  | 4 => some .cmp
  | 5 => some .jmp
  | 6 => some .jeq
  | 7 => some .jgt
  | 8 => some .jlt
  | 9 => some .halt
  | _ => none

/-- The number of an opcode (spec/30_encoding.md R74). -/
def opcodeNumber : Opcode → BitVec 4
  | .blank => 0
  | .mov => 1
  | .add => 2
  | .mul => 3
  | .cmp => 4
  | .jmp => 5
  | .jeq => 6
  | .jgt => 7
  | .jlt => 8
  | .halt => 9

/-- `Arity(op)` (spec/30_encoding.md R71, R74). -/
def arity : Opcode → Nat
  | .blank => 0
  | .mov => 2
  | .add => 2
  | .mul => 2
  | .cmp => 2
  | .jmp => 1
  | .jeq => 1
  | .jgt => 1
  | .jlt => 1
  | .halt => 0

/-! ### The decoder (spec/30_encoding.md R76 to R84) -/

/-- Operand assembly: mode 3 is no valid mode; the value field is zero-extended
(spec/30_encoding.md R76, R77). -/
def decodeOperand (m : BitVec 2) (v : ValueField) : Option Operand :=
  match m.toNat with
  | 0 => some (.imm (v.setWidth Config.xlen))
  | 1 => some (.reg (v.setWidth Config.xlen))
  | 2 => some (.ptr (v.setWidth Config.xlen))
  | _ => none

/-- A word whose opcode has arity 1: slot 1 is used, slot 2 is ignored (spec/30_encoding.md R78, R80). -/
def decodeOne (iw : IWord) (mk : Operand → Instr) : Except Raise Instr :=
  match decodeOperand (m1Field iw) (v1Field iw) with
  | none => .error ⟨.invalidOperandFormat, 1⟩
  | some o1 => .ok (mk o1)

/-- A word whose opcode has arity 2: slot 1 is tested before slot 2 (spec/30_encoding.md R78). -/
def decodeTwo (iw : IWord) (mk : Operand → Operand → Instr) : Except Raise Instr :=
  match decodeOperand (m1Field iw) (v1Field iw) with
  | none => .error ⟨.invalidOperandFormat, 1⟩
  | some o1 =>
    match decodeOperand (m2Field iw) (v2Field iw) with
    | none => .error ⟨.invalidOperandFormat, 2⟩
    | some o2 => .ok (mk o1 o2)

/-- The instruction of a word whose opcode and arity have passed their tests. -/
def decodeForm (op : Opcode) (iw : IWord) : Except Raise Instr :=
  match op with
  | .blank => .ok .blank
  | .mov => decodeTwo iw .mov
  | .add => decodeTwo iw .add
  | .mul => decodeTwo iw .mul
  | .cmp => decodeTwo iw .cmp
  | .jmp => decodeOne iw .jmp
  | .jeq => decodeOne iw .jeq
  | .jgt => decodeOne iw .jgt
  | .jlt => decodeOne iw .jlt
  | .halt => .ok .halt

/-- `Decode` (spec/30_encoding.md R78): opcode, then arity, then the format of the used operands.
Total on every word; a word that is no instruction is rejected with the name of its fault. -/
def decode (iw : IWord) : Except Raise Instr :=
  match opcodeOfNumber (opField iw).toNat with
  | none => .error ⟨.unknownOpcode, (opField iw).setWidth Config.xlen⟩
  | some op =>
    if (cntField iw).toNat = arity op then decodeForm op iw
    else .error ⟨.arityMismatch, (cntField iw).setWidth Config.xlen⟩

/-! ### The canonical encoder (spec/30_encoding.md R89, R91) -/

/-- The opcode of an instruction. -/
def opcodeOf : Instr → Opcode
  | .blank => .blank
  | .mov _ _ => .mov
  | .add _ _ => .add
  | .mul _ _ => .mul
  | .cmp _ _ => .cmp
  | .jmp _ => .jmp
  | .jeq _ => .jeq
  | .jgt _ => .jgt
  | .jlt _ => .jlt
  | .halt => .halt

/-- The mode number of an operand (spec/30_encoding.md R76). -/
def modeNumber : Operand → BitVec 2
  | .imm _ => 0
  | .reg _ => 1
  | .ptr _ => 2

/-- The mode number of a slot; an absent operand has mode 0 (spec/30_encoding.md R91). -/
def slotMode : Option Operand → BitVec 2
  | none => 0
  | some o => modeNumber o

/-- The value field of a slot; an absent operand has value 0 (spec/30_encoding.md R91). -/
def slotValue : Option Operand → ValueField
  | none => 0
  | some o => o.value.setWidth Config.immW

/-- `{ v2, v1, m2, m1, cnt, op }` (spec/30_encoding.md R73, R91). -/
def packFields (op : BitVec 4) (cnt m1 m2 : BitVec 2) (v1 v2 : ValueField) : IWord :=
  v2 ++ (v1 ++ (m2 ++ (m1 ++ (cnt ++ op))))

/-- The word of an instruction whose operands fit their fields (spec/30_encoding.md R91). -/
def encodeWord (i : Instr) : IWord :=
  packFields (opcodeNumber (opcodeOf i)) (BitVec.ofNat 2 (arity (opcodeOf i)))
    (slotMode i.operands[0]?) (slotMode i.operands[1]?)
    (slotValue i.operands[0]?) (slotValue i.operands[1]?)

/-- The canonical encoder: it refuses an operand that does not fit rather than truncate it
(spec/30_encoding.md R89, R91). -/
def encode (i : Instr) : Option IWord := if i.wf then some (encodeWord i) else none

/-! ### Words as bytes outside the core (spec/20_memory.md R53; assumption 10) -/

/-- The bytes of a serialised word, byte 0 (bits 7:0) first. -/
def bytesOfWord (iw : IWord) : List (BitVec 8) :=
  (List.range Config.wordBytes).map fun k => iw.extractLsb' (8 * k) 8

/-- The number whose little-endian bytes are `bs`. -/
def natOfBytes : List (BitVec 8) → Nat
  | [] => 0
  | b :: bs => b.toNat + 256 * natOfBytes bs

/-- The word that serialised bytes stand for. -/
def wordOfBytes (bs : List (BitVec 8)) : IWord := BitVec.ofNat Config.ilen (natOfBytes bs)

/-- Decoding a stream of serialised bytes: the outcome for the first word's bytes and the rest, or `none`
when fewer are left. -/
def decodeBytes (bs : List (BitVec 8)) : Option (Except Raise Instr × List (BitVec 8)) :=
  if bs.length < Config.wordBytes then none
  else some (decode (wordOfBytes (bs.take Config.wordBytes)), bs.drop Config.wordBytes)

/-! ### The host's view of the table -/

/-- The instruction word whose low `nbits` bits are those of `w` and whose other bits are 0. -/
def tableWord (nbits w : Nat) : IWord := BitVec.ofNat Config.ilen (w % 2 ^ nbits)

/-- The instruction the decoder reads from a word numbered as spec/opcode_table.json numbers its bits
(an instruction is one word, so its bits are the word's bits). -/
def decodeTableWord (nbits w : Nat) : Option Instr :=
  match decode (tableWord nbits w) with
  | .ok i => some i
  | .error _ => none

end Sys2Proof
end

