-- ==== Sys2Proof/Machine/State.lean ====
section
/-!
DEFINITION. The architectural state (spec/10_state.md R20 to R40) as plain data, the machine's two
closed types of stops, and the state after reset.
-/

namespace Sys2Proof.Machine

/-- The comparison flag (spec/10_state.md R29, R30; enumerated: assumption 8). -/
inductive ComparisonFlag where
  | equal | lessThan | greaterThan
  deriving DecidableEq, Repr

/-- The state of the control-flow state machine (spec/10_state.md R33; enumerated: assumption 8). -/
inductive Status where
  | running | halted | faulted
  deriving DecidableEq, Repr

/-- The complete state. `N` is the length of `regs` and `L` the length of `imem`
(spec/00_scope.md R6, spec/70_reset_and_hazards.md R211); the instruction store and the budget are
parameters of a run that no step changes (spec/10_state.md R32, R38; assumption 5). -/
structure State where
  /-- The register file `x[0] .. x[N-1]` (spec/10_state.md R21). -/
  regs : List Word
  /-- The program counter, a signed instruction index (spec/10_state.md R26). -/
  pc : Word
  /-- The comparison flag (spec/10_state.md R29). -/
  flag : ComparisonFlag
  /-- The step counter (spec/10_state.md R31). -/
  steps : StepCount
  /-- Running, Halted or Faulted (spec/10_state.md R33). -/
  status : Status
  /-- `err_kind`; `none` is code 0, no fault (spec/10_state.md R34). -/
  errKind : Option FaultKind
  /-- `err_info` (spec/10_state.md R35). -/
  errInfo : Word
  /-- The instruction store, `L` words at indices `0 .. L-1` (spec/20_memory.md R50). -/
  imem : List IWord
  /-- `step_budget` (spec/10_state.md R32). -/
  budget : StepCount
  deriving DecidableEq, Repr

/-- Why a step stops without a next state. The spec's own five faults are not here: each is taken, and
gives a next state (spec/60_exceptions.md R187; assumption 6). -/
inductive Fault where
  /-- Raised by the step when it would fetch outside the instruction store; the termination test comes
  first, so no state raises it (spec/43_fetch_execute_engine.md R163). Safe. -/
  | fetchOutsideStore (pc : Word)
  deriving DecidableEq, Repr

/-- What the machine refuses. No instruction is refused. -/
inductive Refusal where
  /-- An instruction without a meaning; no arm of `exec` answers it. Safe. -/
  | notModelled (mnemonic : String)
  /-- Answered by the launch function for items that break a constraint
  (spec/70_reset_and_hazards.md R212). Safe. -/
  | launchNotAdmitted
  /-- Answered by the read-out of a core that is still Running, to which the spec gives no meaning
  (spec/70_reset_and_hazards.md R214). Safe. -/
  | readOutWhileRunning
  deriving DecidableEq, Repr

/-- The state after reset (spec/10_state.md R40): pc 0, flag Equal, steps 0, Running, no fault, the
default budget; nothing loaded into the instruction store (assumption 4) and the registers at the
values of assumptions 2 and 3. -/
def State.reset : State where
  regs := List.replicate Config.resetRegisterCount (BitVec.ofInt Config.xlen Config.resetRegister)
  pc := 0
  flag := .equal
  steps := 0
  status := .running
  errKind := none
  errInfo := 0
  imem := []
  budget := BitVec.ofNat Config.stepW Config.defaultBudget

end Sys2Proof.Machine
end

