-- ==== Sys2Proof/Machine/Ops.lean ====
section
/-!
DEFINITION. The named operations over the state: the register file with its bounds check
(spec/40_register_file_and_operands.md R100, R101), the field updates a step makes, and taking a fault
(spec/60_exceptions.md R187), which has no return (R190).
-/

namespace Sys2Proof.Machine

/-! ### The two address spaces -/

/-- `N`, the number of registers (spec/00_scope.md R6). -/
abbrev State.registerCount (s : State) : Nat := s.regs.length

/-- `L`, the number of instruction words (spec/00_scope.md R5). -/
abbrev State.instructionCount (s : State) : Nat := s.imem.length

/-- Both word-indexed spaces respect the bounds of spec/00_scope.md R5. A dense list of words is the
canonical form of a space by itself: equal contents are equal lists. -/
def Memory.wf (s : State) : Bool :=
  decide (s.registerCount ≤ Config.maxLength) && decide (s.instructionCount ≤ Config.maxLength)

/-- `InRange(i)`: `0 <=s i and i <s N` (spec/00_scope.md R14). The comparison is over the integers. -/
def inRange (s : State) (i : Word) : Bool :=
  decide (0 ≤ i.toInt) && decide (i.toInt < (s.registerCount : Int))

/-- `x[i]`, the raw content of a register; called only where `inRange` holds (spec/00_scope.md R15). -/
def rawRead (s : State) (i : Word) : Word := s.regs.getD i.toNat 0

/-- `x[i] <- v`, the raw write; called only where `inRange` holds (spec/00_scope.md R15). -/
def rawWrite (s : State) (i v : Word) : State := { s with regs := s.regs.set i.toNat v }

/-- `RegRead(i)` (spec/40_register_file_and_operands.md R100). -/
def regRead (s : State) (i : Word) : Except Raise Word :=
  if inRange s i then .ok (rawRead s i) else .error ⟨.registerOutOfRange, i⟩

/-- `RegWrite(i, v)` (spec/40_register_file_and_operands.md R101). -/
def regWrite (s : State) (i v : Word) : Except Raise State :=
  if inRange s i then .ok (rawWrite s i v) else .error ⟨.registerOutOfRange, i⟩

/-! ### Field updates -/

/-- `pc <- pc + 1` (spec/42_control_transfer.md R148). -/
def State.advance (s : State) : State := { s with pc := s.pc + 1 }

/-- `pc <- t`, verbatim (spec/42_control_transfer.md R140). -/
def State.jumpTo (s : State) (t : Word) : State := { s with pc := t }

/-- `flag <- f` (spec/41_alu_data.md R124). -/
def State.setFlag (s : State) (f : ComparisonFlag) : State := { s with flag := f }

/-- `status <- Halted` (spec/42_control_transfer.md R145, spec/43_fetch_execute_engine.md R161). -/
def State.halt (s : State) : State := { s with status := .halted }

/-- `steps <- steps + 1` (spec/43_fetch_execute_engine.md R162). -/
def State.countStep (s : State) : State := { s with steps := s.steps + 1 }

/-! ### Faults -/

/-- `FaultEntry(K, info)`: three registers are written, nothing else (spec/60_exceptions.md R187). -/
def faultEntry (r : Raise) (s : State) : State :=
  { s with status := .faulted, errKind := some r.kind, errInfo := r.info }

/-- The end of an instruction that ran in state `s`: its result, or, where it raised, the fault entry
in `s`, so that a fault keeps nothing of the instruction (spec/60_exceptions.md R187, R188). -/
def settle (s : State) (r : Except Raise State) : Host.Outcome State Fault Refusal :=
  match r with
  | .ok t => .next t
  | .error e => .next (faultEntry e s)

/-! ### The bit codes the host reads -/

/-- The 3-bit code of `err_kind` (spec/10_state.md R34, spec/60_exceptions.md R180). -/
def errKindCode : Option FaultKind → BitVec 3
  | none => 0
  | some .invalidOperandFormat => 1
  | some .unknownOpcode => 2
  | some .arityMismatch => 3
  | some .registerOutOfRange => 4
  | some .invalidWriteTarget => 5

/-- The 2-bit code of `status` (spec/10_state.md R33). -/
def statusCode : Status → BitVec 2
  | .running => 0
  | .halted => 1
  | .faulted => 2

end Sys2Proof.Machine
end

