-- ==== Sys2Proof/Machine/Flags.lean ====
section
/-!
DEFINITION. The one comparison flag: how CMP computes it, which jump it takes, and its bit code
(spec/41_alu_data.md R124, R127; spec/42_control_transfer.md R147; spec/10_state.md R30).
-/

namespace Sys2Proof.Machine

/-- The three-way signed comparison (spec/41_alu_data.md R124, R127). -/
def compareSigned (a b : Word) : ComparisonFlag :=
  if a.toInt < b.toInt then .lessThan
  else if b.toInt < a.toInt then .greaterThan
  else .equal

/-- The 2-bit code of the flag (spec/10_state.md R30). -/
def flagCode : ComparisonFlag → BitVec 2
  | .equal => 0
  | .lessThan => 1
  | .greaterThan => 2

end Sys2Proof.Machine
end

