-- ==== Sys2Proof/Machine/Operands.lean ====
section
/-!
DEFINITION. The operand resolver: the three addressing modes for reading and for writing
(spec/40_register_file_and_operands.md R103 to R111).
-/

namespace Sys2Proof.Machine

/-- `ResolveRead(o)` (spec/40_register_file_and_operands.md R103). -/
def resolveRead (s : State) : Operand → Except Raise Word
  | .imm v => .ok v
  | .reg idx => regRead s idx
  | .ptr idx => do
    let a ← regRead s idx
    regRead s a

/-- `ResolveWrite(o, val)` (spec/40_register_file_and_operands.md R104). -/
def resolveWrite (s : State) (val : Word) : Operand → Except Raise State
  | .imm v => .error ⟨.invalidWriteTarget, v⟩
  | .reg idx => regWrite s idx val
  | .ptr idx => do
    let a ← regRead s idx
    regWrite s a val

end Sys2Proof.Machine
end

