-- ==== Sys2Proof/Machine/Control.lean ====
section
/-!
DEFINITION. Control transfer: BLANK, JMP, JEQ, JGT, JLT and HALT (spec/42_control_transfer.md R140 to
R148).
-/

namespace Sys2Proof.Machine

/-- A jump that is taken: the pc takes the value of the target verbatim (spec/42_control_transfer.md
R140). -/
def takeJump (target : Operand) (s : State) : Except Raise State := do
  let t ← resolveRead s target
  .ok (s.jumpTo t)

/-- A jump taken exactly when the flag is `want`; otherwise its target is not resolved
(spec/42_control_transfer.md R142; decision D13, assumption 16). -/
def conditionalJump (want : ComparisonFlag) (target : Operand) (s : State) : Except Raise State :=
  if s.flag = want then takeJump target s else .ok s.advance

/-- The blank instruction (spec/42_control_transfer.md R146). -/
def execBlank (s : State) : Host.Outcome State Fault Refusal := .next s.advance

/-- JMP (spec/42_control_transfer.md R141). -/
def execJmp (target : Operand) (s : State) : Host.Outcome State Fault Refusal :=
  settle s (takeJump target s)

/-- JEQ (spec/42_control_transfer.md R142). -/
def execJeq (target : Operand) (s : State) : Host.Outcome State Fault Refusal :=
  settle s (conditionalJump .equal target s)

/-- JGT (spec/42_control_transfer.md R143). -/
def execJgt (target : Operand) (s : State) : Host.Outcome State Fault Refusal :=
  settle s (conditionalJump .greaterThan target s)

/-- JLT (spec/42_control_transfer.md R144). -/
def execJlt (target : Operand) (s : State) : Host.Outcome State Fault Refusal :=
  settle s (conditionalJump .lessThan target s)

/-- HALT (spec/42_control_transfer.md R145): the pc keeps the index of the HALT. -/
def execHalt (s : State) : Host.Outcome State Fault Refusal := .next s.halt

end Sys2Proof.Machine
end

