-- ==== Sys2Proof/Machine/Data.lean ====
section
/-!
DEFINITION. The data instructions MOV, ADD, MUL, CMP (spec/41_alu_data.md R120 to R127). All reads come
first, left to right as the rule's pseudocode writes them, then the single write, then the pc.
-/

namespace Sys2Proof.Machine

/-- `ADD` and `MUL` share their order of resolution: read `dst`, read `src`, write `f a b` to `dst`
(spec/41_alu_data.md R122, R123). -/
def readModifyWrite (f : Word → Word → Word) (dst src : Operand) (s : State) : Except Raise State := do
  let a ← resolveRead s dst
  let b ← resolveRead s src
  let t ← resolveWrite s (f a b) dst
  .ok t.advance

/-- MOV (spec/41_alu_data.md R121): the source first, then the write; `dst` is not read. -/
def execMov (dst src : Operand) (s : State) : Host.Outcome State Fault Refusal :=
  settle s do
    let v ← resolveRead s src
    let t ← resolveWrite s v dst
    .ok t.advance

/-- ADD (spec/41_alu_data.md R122): addition modulo `2^XLEN` (R125). -/
def execAdd (dst src : Operand) (s : State) : Host.Outcome State Fault Refusal :=
  settle s (readModifyWrite (fun a b => a + b) dst src s)

/-- MUL (spec/41_alu_data.md R123): the low `XLEN` bits of the product (R126). -/
def execMul (dst src : Operand) (s : State) : Host.Outcome State Fault Refusal :=
  settle s (readModifyWrite (fun a b => a * b) dst src s)

/-- CMP (spec/41_alu_data.md R124): `op1` first, then `op2`; only the flag is written. -/
def execCmp (op1 op2 : Operand) (s : State) : Host.Outcome State Fault Refusal :=
  settle s do
    let a ← resolveRead s op1
    let b ← resolveRead s op2
    .ok (s.setFlag (compareSigned a b)).advance

end Sys2Proof.Machine
end

