-- ==== Sys2Proof/Machine/Dispatch.lean ====
section
/-!
DEFINITION. The dispatch: point 4 of the transition rule for each decoded instruction
(spec/43_fetch_execute_engine.md R160).
-/

namespace Sys2Proof.Machine

def exec (i : Instr) (s : State) : Host.Outcome State Fault Refusal :=
  match i with
  | .blank => Sys2Proof.Machine.execBlank s
  | .mov dst src => Sys2Proof.Machine.execMov dst src s
  | .add dst src => Sys2Proof.Machine.execAdd dst src s
  | .mul dst src => Sys2Proof.Machine.execMul dst src s
  | .cmp op1 op2 => Sys2Proof.Machine.execCmp op1 op2 s
  | .jmp target => Sys2Proof.Machine.execJmp target s
  | .jeq target => Sys2Proof.Machine.execJeq target s
  | .jgt target => Sys2Proof.Machine.execJgt target s
  | .jlt target => Sys2Proof.Machine.execJlt target s
  | .halt => Sys2Proof.Machine.execHalt s

end Sys2Proof.Machine
end

