-- ==== Sys2Proof/Machine/Engine.lean ====
section
/-!
DEFINITION. The fetch-execute engine: the termination test, the fetch, decode and dispatch
(spec/43_fetch_execute_engine.md R160 to R167), and how the host places one word where the next step
fetches it.
-/

namespace Sys2Proof.Machine

/-- `IFetch(a)`, defined only for `0 <=s a <s L` (spec/20_memory.md R50). -/
def ifetch (s : State) (a : Word) : Option IWord :=
  if 0 ≤ a.toInt then s.imem[a.toNat]? else none

/-- The termination test: the pc outside `[0, L)`, or the budget reached
(spec/43_fetch_execute_engine.md R161). The comparison is over the integers. -/
def terminationTest (s : State) : Bool :=
  decide (s.pc.toInt < 0) || decide ((s.instructionCount : Int) ≤ s.pc.toInt) ||
    decide (s.steps = s.budget)

/-- Decode and dispatch (spec/43_fetch_execute_engine.md R165); the blank test of R164 is the decoder's
own `blank` (assumption 12). -/
def executeWord (iw : IWord) (s : State) : Host.Outcome State Fault Refusal :=
  match decode iw with
  | .ok i => exec i s
  | .error r => .next (faultEntry r s)

/-- Points 2 to 6 of the transition rule: count the step, fetch, decode, execute. -/
def fetchAndExecute (s : State) : Host.Outcome State Fault Refusal :=
  match ifetch s s.pc with
  | some iw => executeWord iw s.countStep
  | none => .fault (.fetchOutsideStore s.pc)

/-- `Step` (spec/43_fetch_execute_engine.md R160); the identity in a terminal state (R167;
assumption 7). -/
def engineStep (s : State) : Host.Outcome State Fault Refusal :=
  match s.status with
  | .halted => .next s
  | .faulted => .next s
  | .running => if terminationTest s then .next s.halt else fetchAndExecute s

/-! ### Placing a word (assumption 4) -/

/-- A terminal state as a new launch leaves the outcome registers (spec/70_reset_and_hazards.md R210). -/
def makeRunning (s : State) : State :=
  match s.status with
  | .running => s
  | .halted => { s with status := .running, errKind := none, errInfo := 0 }
  | .faulted => { s with status := .running, errKind := none, errInfo := 0 }

/-- A state whose budget is spent, given budget again: a new count, and the default budget where the
launch gave none to spend. -/
def makeBudget (s : State) : State :=
  if s.steps = s.budget then
    { s with steps := 0, budget := if s.budget = 0 then BitVec.ofNat Config.stepW Config.defaultBudget else s.budget }
  else s

/-- A state whose pc is an index: a negative pc becomes the entry point 0 (spec/20_memory.md R56). -/
def makeIndex (s : State) : State := if s.pc.toInt < 0 then { s with pc := 0 } else s

/-- The store with `iw` at index `a`, blank words (all zeros) filling what lies before it. -/
def putWord (store : List IWord) (a : Nat) (iw : IWord) : List IWord :=
  store.take a ++ List.replicate (a - store.length) 0 ++ iw :: store.drop (a + 1)

/-- `s` with `iw` where the next step fetches, and running with budget left. -/
def placeWord (s : State) (iw : IWord) : State :=
  let t := makeIndex (makeBudget (makeRunning s))
  { t with imem := putWord t.imem t.pc.toNat iw }

end Sys2Proof.Machine
end

