-- ==== Sys2Proof/Machine/Step.lean ====
section
/-!
DEFINITION. One step of the machine, and the host's way of placing an instruction for it.
-/

namespace Sys2Proof.Machine

/-- One step (spec/43_fetch_execute_engine.md R160). -/
def step (s : State) : Host.Outcome State Fault Refusal := engineStep s

/-- `s` with the instruction whose bits are `w` stored where `step` fetches next. It stands for the
host's launch of a program that holds it (spec/70_reset_and_hazards.md R211; assumption 4). -/
def State.withFetchWord (s : State) (nbits w : Nat) : State := placeWord s (tableWord nbits w)

end Sys2Proof.Machine
end

