-- ==== Sys2Proof/Machine/Assemble.lean ====
section
/-!
DEFINITION. From a line of text to an instruction word: `Assemble` (spec/30_encoding.md R86 to R89).
The text level is outside the core (spec/00_scope.md R4); the spec gives this mapping so that the
core's faults on a word are the faults of its text.
-/

namespace Sys2Proof.Machine

/-- What separates tokens: commas and whitespace (spec/30_encoding.md R86). Which characters are
whitespace is DESIGN CHOICE (assumption 11): tab, line feed, vertical tab, form feed, carriage return
and space. -/
def isSeparator (c : Char) : Bool :=
  decide (c.toNat = 44) || decide (c.toNat = 32) || (decide (9 ≤ c.toNat) && decide (c.toNat ≤ 13))

/-- A token being read, as a list of at most one token: empty pieces are dropped. -/
def closeToken (cur : List Char) : List (List Char) := if cur = [] then [] else [cur]

/-- The tokens of a line, `cur` being the one under way. -/
def tokensFrom (cur : List Char) : List Char → List (List Char)
  | [] => closeToken cur
  | c :: cs => if isSeparator c then closeToken cur ++ tokensFrom [] cs else tokensFrom (cur ++ [c]) cs

/-- `line` split at every run of commas and whitespace, empty pieces dropped (spec/30_encoding.md R89). -/
def tokens (line : List Char) : List (List Char) := tokensFrom [] line

/-- The nine mnemonics, upper case (spec/30_encoding.md R87). -/
def opcodeOfMnemonic (t : List Char) : Option Opcode :=
  if t = ['M', 'O', 'V'] then some .mov
  else if t = ['A', 'D', 'D'] then some .add
  else if t = ['M', 'U', 'L'] then some .mul
  else if t = ['C', 'M', 'P'] then some .cmp
  else if t = ['J', 'M', 'P'] then some .jmp
  else if t = ['J', 'E', 'Q'] then some .jeq
  else if t = ['J', 'G', 'T'] then some .jgt
  else if t = ['J', 'L', 'T'] then some .jlt
  else if t = ['H', 'A', 'L', 'T'] then some .halt
  else none

/-- The mode number of a mode letter (spec/30_encoding.md R76, R88). -/
def modeOfLetter (c : Char) : Option (BitVec 2) :=
  if c = 'V' then some 0 else if c = 'R' then some 1 else if c = 'P' then some 2 else none

/-- The value of a decimal digit. -/
def digitValue (c : Char) : Option Nat :=
  if 48 ≤ c.toNat ∧ c.toNat ≤ 57 then some (c.toNat - 48) else none

/-- The value of a run of decimal digits read after a number `acc`. -/
def digitsValue (acc : Nat) : List Char → Option Nat
  | [] => some acc
  | c :: cs =>
    match digitValue c with
    | none => none
    | some d => digitsValue (10 * acc + d) cs

/-- A mode letter followed by one or more decimal digits; `none` for every other token
(spec/30_encoding.md R88). -/
def operandToken : List Char → Option (BitVec 2 × Nat)
  | [] => none
  | [_] => none
  | c :: d :: ds =>
    match modeOfLetter c, digitsValue 0 (d :: ds) with
    | some m, some n => some (m, n)
    | _, _ => none

/-- Mode and value of an operand slot: absent is 0, 0; malformed is 3, 0; an integer that does not fit
refuses the line (spec/30_encoding.md R89). -/
def assembleSlot : Option (List Char) → Option (BitVec 2 × ValueField)
  | none => some (0, 0)
  | some t =>
    match operandToken t with
    | none => some (3, 0)
    | some (m, n) => if n < 2 ^ Config.immW then some (m, BitVec.ofNat Config.immW n) else none

/-- The opcode number of the first token, 15 where it is no mnemonic (spec/30_encoding.md R89). -/
def assembleOpcode (t : List Char) : BitVec 4 :=
  match opcodeOfMnemonic t with
  | some op => opcodeNumber op
  | none => 15

/-- `Assemble(line)`; `none` refuses the line (spec/30_encoding.md R89). -/
def assemble (line : List Char) : Option IWord :=
  match tokens line with
  | [] => some 0
  | t :: ts => do
    let (m1, v1) ← assembleSlot ts[0]?
    let (m2, v2) ← assembleSlot ts[1]?
    return packFields (assembleOpcode t) (BitVec.ofNat 2 (min ts.length 3)) m1 m2 v1 v2

end Sys2Proof.Machine
end

