-- ==== Sys2Proof/Machine/Launch.lean ====
section
/-!
DEFINITION. The host's two transactions around a run: the launch, which is this hardware's reset
(spec/70_reset_and_hazards.md R210 to R212), and the read-out (R214) with the result of the run
(spec/43_fetch_execute_engine.md R169).
-/

namespace Sys2Proof.Machine

/-- The items of a launch as the host gives them: unbounded integers, words of any bits, and a budget or
none (spec/70_reset_and_hazards.md R211). `N` and `L` are the lengths of the two lists. -/
structure LaunchItems where
  init : List Int
  imem : List IWord
  budget : Option Int
  deriving DecidableEq, Repr

/-- The range of a signed `XLEN`-bit value (spec/00_scope.md R11). -/
def fitsSigned (n : Int) : Bool := decide (-2 ^ (Config.xlen - 1) ≤ n) && decide (n < 2 ^ (Config.xlen - 1))

/-- The range of an unsigned `STEP_W`-bit value (spec/70_reset_and_hazards.md R211). -/
def fitsBudget (n : Int) : Bool := decide (0 ≤ n) && decide (n < 2 ^ Config.stepW)

/-- The budget of a launch: the host's, or the default where it gives none
(spec/70_reset_and_hazards.md R211). -/
def LaunchItems.budgetValue (l : LaunchItems) : Int := l.budget.getD (Config.defaultBudget : Int)

/-- The constraints of spec/70_reset_and_hazards.md R211. Instruction words are never refused. -/
def launchAdmitted (l : LaunchItems) : Bool :=
  decide (l.init.length ≤ Config.maxLength) && l.init.all fitsSigned &&
    decide (l.imem.length ≤ Config.maxLength) && fitsBudget l.budgetValue

/-- The state a launch sets (spec/10_state.md R40, spec/70_reset_and_hazards.md R210). -/
def launchState (l : LaunchItems) : State where
  regs := l.init.map (BitVec.ofInt Config.xlen)
  pc := 0
  flag := .equal
  steps := 0
  status := .running
  errKind := none
  errInfo := 0
  imem := l.imem
  budget := BitVec.ofInt Config.stepW l.budgetValue

/-- The launch: refused, not truncated, when an item breaks a constraint
(spec/70_reset_and_hazards.md R212). -/
def launch (l : LaunchItems) : Host.Outcome State Fault Refusal :=
  if launchAdmitted l then .next (launchState l) else .refused .launchNotAdmitted

/-- What the host reads after termination, as bit patterns (spec/70_reset_and_hazards.md R213, R214). -/
structure ReadOut where
  status : BitVec 2
  errKind : BitVec 3
  errInfo : Word
  regs : List Word
  pc : Word
  flag : BitVec 2
  steps : StepCount
  deriving DecidableEq, Repr

/-- The read-out; of a core that is still Running it is refused (spec/70_reset_and_hazards.md R214). -/
def readOut (s : State) : Host.Outcome ReadOut Fault Refusal :=
  if s.status = .running then .refused .readOutWhileRunning
  else .next
    { status := statusCode s.status, errKind := errKindCode s.errKind, errInfo := s.errInfo,
      regs := s.regs, pc := s.pc, flag := flagCode s.flag, steps := s.steps }

/-- The result of a run: the final register vector, or the error (spec/43_fetch_execute_engine.md R169). -/
inductive RunResult where
  | registers (x : List Word)
  | error (kind : FaultKind) (info : Word)
  deriving DecidableEq, Repr

/-- The result the caller receives; none while the core runs (spec/43_fetch_execute_engine.md R169). -/
def runResult (s : State) : Option RunResult :=
  match s.status with
  | .running => none
  | .halted => some (.registers s.regs)
  | .faulted => s.errKind.map fun k => .error k s.errInfo

end Sys2Proof.Machine
end

