-- ==== Sys2Proof/Machine/Parametric.lean ====
section
/-!
DEFINITION. The machine with the parameters of spec/00_scope.md R5 as its argument: `XLEN`, `IMM_W` and
`STEP_W` in a `Config.Params`, `N`, `L` and `BUDGET` in the launch. It is written a second time from the
rules, over numbers: a register, the pc and `err_info` are their signed values (R11), an instruction word
is its unsigned value (R10), and `keep` says what a result becomes. Two machines are made of it:
`parametricStep c` keeps `XLEN` bits, and the core (Sys2Proof/Machine/Step.lean) is the one at
`Config.params`; `unboundedStep` keeps every integer, the source's formulas of spec/41_alu_data.md R129.
-/

namespace Sys2Proof.Machine

/-! ### Decoded instructions and words as numbers, for any `IMM_W` -/

/-- An operand with the number it carries, which is never negative (spec/30_encoding.md R70, R77). -/
inductive IntOperand where
  | imm (v : Nat)
  | reg (idx : Nat)
  | ptr (idx : Nat)
  deriving DecidableEq, Repr

/-- The number an operand carries. -/
def IntOperand.value : IntOperand → Nat
  | .imm v => v
  | .reg idx => idx
  | .ptr idx => idx

/-- The ten instruction kinds (spec/30_encoding.md R70, R71). -/
inductive IntInstr where
  | blank
  | mov (dst src : IntOperand)
  | add (dst src : IntOperand)
  | mul (dst src : IntOperand)
  | cmp (op1 op2 : IntOperand)
  | jmp (target : IntOperand)
  | jeq (target : IntOperand)
  | jgt (target : IntOperand)
  | jlt (target : IntOperand)
  | halt
  deriving DecidableEq, Repr

/-- The operands in slot order. -/
def IntInstr.operands : IntInstr → List IntOperand
  | .blank => []
  | .mov dst src => [dst, src]
  | .add dst src => [dst, src]
  | .mul dst src => [dst, src]
  | .cmp op1 op2 => [op1, op2]
  | .jmp target => [target]
  | .jeq target => [target]
  | .jgt target => [target]
  | .jlt target => [target]
  | .halt => []

/-- The opcode number of an instruction (spec/30_encoding.md R74). -/
def IntInstr.number : IntInstr → Nat
  | .blank => 0
  | .mov _ _ => 1
  | .add _ _ => 2
  | .mul _ _ => 3
  | .cmp _ _ => 4
  | .jmp _ => 5
  | .jeq _ => 6
  | .jgt _ => 7
  | .jlt _ => 8
  | .halt => 9

/-- A fault of the machine over numbers: its kind and the offending number. -/
abbrev IntRaise := FaultKind × Int

/-- The operand of a slot: mode number `m`, value field `v`; `slot` is reported when there is none
(spec/30_encoding.md R76, R77, R83). -/
def intOperand (slot m v : Nat) : Except IntRaise IntOperand :=
  match m with
  | 0 => .ok (.imm v)
  | 1 => .ok (.reg v)
  | 2 => .ok (.ptr v)
  | _ => .error (.invalidOperandFormat, (slot : Int))

/-- Operand 1 of a word: `m1 = iw[7:6]`, `v1 = iw[9+IMM_W:10]` (spec/30_encoding.md R73). -/
def intOperand1 (immW iw : Nat) : Except IntRaise IntOperand :=
  intOperand 1 (iw / 64 % 4) (iw / 1024 % 2 ^ immW)

/-- Operand 2 of a word: `m2 = iw[9:8]`, `v2 = iw[9+2*IMM_W:10+IMM_W]` (spec/30_encoding.md R73). -/
def intOperand2 (immW iw : Nat) : Except IntRaise IntOperand :=
  intOperand 2 (iw / 256 % 4) (iw / 2 ^ (10 + immW) % 2 ^ immW)

/-- A word of arity 2: slot 1 before slot 2 (spec/30_encoding.md R78). -/
def intDecodeTwo (immW iw : Nat) (mk : IntOperand → IntOperand → IntInstr) : Except IntRaise IntInstr := do
  let o1 ← intOperand1 immW iw
  let o2 ← intOperand2 immW iw
  .ok (mk o1 o2)

/-- A word of arity 1. -/
def intDecodeOne (immW iw : Nat) (mk : IntOperand → IntInstr) : Except IntRaise IntInstr := do
  let o1 ← intOperand1 immW iw
  .ok (mk o1)

/-- The form of an opcode whose operand count has passed its test. -/
def intDecodeForm (immW iw : Nat) : Opcode → Except IntRaise IntInstr
  | .blank => .ok .blank
  | .mov => intDecodeTwo immW iw .mov
  | .add => intDecodeTwo immW iw .add
  | .mul => intDecodeTwo immW iw .mul
  | .cmp => intDecodeTwo immW iw .cmp
  | .jmp => intDecodeOne immW iw .jmp
  | .jeq => intDecodeOne immW iw .jeq
  | .jgt => intDecodeOne immW iw .jgt
  | .jlt => intDecodeOne immW iw .jlt
  | .halt => .ok .halt

/-- `Decode` for any `IMM_W`: opcode, operand count, operand formats (spec/30_encoding.md R78). -/
def intDecode (immW iw : Nat) : Except IntRaise IntInstr :=
  match opcodeOfNumber (iw % 16) with
  | none => .error (.unknownOpcode, ((iw % 16 : Nat) : Int))
  | some op =>
    if iw / 16 % 4 = arity op then intDecodeForm immW iw op
    else .error (.arityMismatch, ((iw / 16 % 4 : Nat) : Int))

/-- The mode number of an operand (spec/30_encoding.md R76). -/
def IntOperand.mode : IntOperand → Nat
  | .imm _ => 0
  | .reg _ => 1
  | .ptr _ => 2

/-- The number of the canonical word of opcode number `op` and these operands (spec/30_encoding.md R91). -/
def intEncodeFields (immW op : Nat) : List IntOperand → Nat
  | [] => op
  | [o1] => op + 16 * 1 + 64 * o1.mode + 1024 * o1.value
  | o1 :: o2 :: _ => op + 16 * 2 + 64 * o1.mode + 256 * o2.mode + 1024 * o1.value +
      2 ^ (10 + immW) * o2.value

/-- The canonical encoder for any `IMM_W`; it refuses an operand that does not fit
(spec/30_encoding.md R89, R91). -/
def intEncode (immW : Nat) (i : IntInstr) : Option Nat :=
  if i.operands.all (fun o => decide (o.value < 2 ^ immW)) then
    some (intEncodeFields immW i.number i.operands)
  else none

/-! ### State and operands -/

/-- The state of the machine over numbers: the elements of spec/10_state.md R20 and the parameters of
a run. -/
structure IntState where
  regs : List Int
  pc : Int
  flag : ComparisonFlag
  steps : Nat
  status : Status
  errKind : Option FaultKind
  errInfo : Int
  imem : List Nat
  budget : Nat
  deriving DecidableEq, Repr

/-- `registers.read(idx)` (spec/40_register_file_and_operands.md R100). -/
def intRead (s : IntState) (i : Int) : Except IntRaise Int :=
  if 0 ≤ i ∧ i < (s.regs.length : Int) then .ok (s.regs.getD i.toNat 0)
  else .error (.registerOutOfRange, i)

/-- `registers.write(idx, value)` (spec/40_register_file_and_operands.md R101). -/
def intWrite (s : IntState) (i v : Int) : Except IntRaise IntState :=
  if 0 ≤ i ∧ i < (s.regs.length : Int) then .ok { s with regs := s.regs.set i.toNat v }
  else .error (.registerOutOfRange, i)

/-- The read resolution (spec/40_register_file_and_operands.md R103). -/
def intResolveRead (s : IntState) : IntOperand → Except IntRaise Int
  | .imm v => .ok (v : Int)
  | .reg idx => intRead s (idx : Int)
  | .ptr idx => do
    let a ← intRead s (idx : Int)
    intRead s a

/-- The write resolution (spec/40_register_file_and_operands.md R104). -/
def intResolveWrite (s : IntState) (val : Int) : IntOperand → Except IntRaise IntState
  | .imm v => .error (.invalidWriteTarget, (v : Int))
  | .reg idx => intWrite s (idx : Int) val
  | .ptr idx => do
    let a ← intRead s (idx : Int)
    intWrite s a val

/-! ### Instructions; `keep` is what a computed value becomes -/

/-- `pc = pc + 1`. -/
def IntState.advance (keep : Int → Int) (s : IntState) : IntState := { s with pc := keep (s.pc + 1) }

/-- `write(dst, f(read(dst), read(src)))` (spec/41_alu_data.md R122, R123). -/
def intReadModifyWrite (keep : Int → Int) (f : Int → Int → Int) (dst src : IntOperand) (s : IntState) :
    Except IntRaise IntState := do
  let a ← intResolveRead s dst
  let b ← intResolveRead s src
  let t ← intResolveWrite s (keep (f a b)) dst
  .ok (t.advance keep)

/-- The three-way comparison of integers (spec/41_alu_data.md R124). -/
def intCompare (a b : Int) : ComparisonFlag :=
  if a < b then .lessThan else if b < a then .greaterThan else .equal

/-- A jump taken exactly when `taken` holds (spec/42_control_transfer.md R140, R142). -/
def intJump (keep : Int → Int) (taken : Bool) (target : IntOperand) (s : IntState) :
    Except IntRaise IntState :=
  if taken then do
    let t ← intResolveRead s target
    .ok { s with pc := t }
  else .ok (s.advance keep)

/-- The opcode table (rows quoted in spec/41_alu_data.md and spec/42_control_transfer.md). -/
def intExec (keep : Int → Int) (i : IntInstr) (s : IntState) : Except IntRaise IntState :=
  match i with
  | .blank => .ok (s.advance keep)
  | .mov dst src => do
    let v ← intResolveRead s src
    let t ← intResolveWrite s v dst
    .ok (t.advance keep)
  | .add dst src => intReadModifyWrite keep (fun a b => a + b) dst src s
  | .mul dst src => intReadModifyWrite keep (fun a b => a * b) dst src s
  | .cmp op1 op2 => do
    let a ← intResolveRead s op1
    let b ← intResolveRead s op2
    .ok ({ s with flag := intCompare a b }.advance keep)
  | .jmp target => intJump keep true target s
  | .jeq target => intJump keep (decide (s.flag = .equal)) target s
  | .jgt target => intJump keep (decide (s.flag = .greaterThan)) target s
  | .jlt target => intJump keep (decide (s.flag = .lessThan)) target s
  | .halt => .ok { s with status := .halted }

/-! ### The step -/

/-- The fault entry (spec/60_exceptions.md R187). -/
def intFault (keep : Int → Int) (e : IntRaise) (s : IntState) : IntState :=
  { s with status := .faulted, errKind := some e.1, errInfo := keep e.2 }

/-- Points 3 to 6 of the transition rule for a fetched word. -/
def intExecuteWord (immW : Nat) (keep : Int → Int) (iw : Nat) (s : IntState) : IntState :=
  match intDecode immW iw with
  | .error e => intFault keep e s
  | .ok i =>
    match intExec keep i s with
    | .ok t => t
    | .error e => intFault keep e s

/-- The transition rule, points 1 to 6 (spec/43_fetch_execute_engine.md section 1, R160). -/
def intStep (immW : Nat) (keep : Int → Int) (s : IntState) : IntState :=
  match s.status with
  | .halted => s
  | .faulted => s
  | .running =>
    if s.pc < 0 ∨ (s.imem.length : Int) ≤ s.pc ∨ s.steps = s.budget then { s with status := .halted }
    else intExecuteWord immW keep (s.imem.getD s.pc.toNat 0) { s with steps := s.steps + 1 }

/-- What `XLEN` bits keep of an integer: the value in the signed range that is congruent to it modulo
`2^XLEN` (spec/00_scope.md R11, R12; spec/41_alu_data.md R125). -/
def wrapAt (c : Config.Params) (n : Int) : Int := Int.bmod n (2 ^ c.xlen)

/-- One step of the hardware with the parameters `c` (spec/00_scope.md R5). -/
def parametricStep (c : Config.Params) (s : IntState) : IntState := intStep c.immW (wrapAt c) s

/-- One step of the source's formulas over the unbounded integers (spec/41_alu_data.md R129). -/
def unboundedStep (s : IntState) : IntState := intStep Config.immW id s

/-- `n` steps of the unbounded machine. -/
def unboundedRun : Nat → IntState → IntState
  | 0, s => s
  | n + 1, s => unboundedRun n (unboundedStep s)

/-! ### The launch -/

/-- The items of a launch, all as numbers (spec/70_reset_and_hazards.md R211); `N` and `L` are the
lengths of the two lists. -/
structure IntLaunchItems where
  init : List Int
  imem : List Nat
  budget : Option Int
  deriving DecidableEq, Repr

/-- The budget of a launch, the default where it names none (spec/00_scope.md R7). -/
def IntLaunchItems.budgetValue (l : IntLaunchItems) : Int := l.budget.getD (Config.defaultBudget : Int)

/-- The constraints on `N`, `L`, `BUDGET`, the initial values and the words, for the parameters `c`
(spec/00_scope.md R5, spec/70_reset_and_hazards.md R211). -/
def admittedAt (c : Config.Params) (l : IntLaunchItems) : Bool :=
  decide (l.init.length ≤ c.maxLength) &&
    l.init.all (fun n => decide (-2 ^ (c.xlen - 1) ≤ n) && decide (n < 2 ^ (c.xlen - 1))) &&
    decide (l.imem.length ≤ c.maxLength) && l.imem.all (fun w => decide (w < 2 ^ c.ilen)) &&
    decide (0 ≤ l.budgetValue) && decide (l.budgetValue < 2 ^ c.stepW)

/-- The state a launch sets (spec/10_state.md R40). -/
def intLaunch (l : IntLaunchItems) : IntState where
  regs := l.init
  pc := 0
  flag := .equal
  steps := 0
  status := .running
  errKind := none
  errInfo := 0
  imem := l.imem
  budget := l.budgetValue.toNat

/-- The launch of the hardware with the parameters `c`; `none` is a launch that is refused
(spec/70_reset_and_hazards.md R212). -/
def parametricLaunch (c : Config.Params) (l : IntLaunchItems) : Option IntState :=
  if admittedAt c l then some (intLaunch l) else none

/-! ### The core as numbers -/

/-- What a state of the core stands for: `sval` of each register, of the pc and of `err_info`, `uval` of
each word and count (spec/00_scope.md R11, spec/41_alu_data.md R129). -/
def intView (s : State) : IntState where
  regs := s.regs.map BitVec.toInt
  pc := s.pc.toInt
  flag := s.flag
  steps := s.steps.toNat
  status := s.status
  errKind := s.errKind
  errInfo := s.errInfo.toInt
  imem := s.imem.map BitVec.toNat
  budget := s.budget.toNat

/-- The items of a launch of the core, as numbers. -/
def LaunchItems.asNumbers (l : LaunchItems) : IntLaunchItems where
  init := l.init
  imem := l.imem.map BitVec.toNat
  budget := l.budget

end Sys2Proof.Machine
end

