-- ==== Sys2Proof/Safety.lean ====
section
/-!
DEFINITION. The terms the statements use: what an operand names, reads or fails on, when a run ends,
the number a word is made of, and the invariant of every reachable state. They are written from the
rules, over the fields of the state, and call none of the machine's own operations but the decoder.
-/

namespace Sys2Proof.Machine

/-! ### Registers and operands -/

/-- The index is outside `[0, N)` (spec/60_exceptions.md R184). -/
def OutOfBounds (s : State) (i : Word) : Prop := i.toInt < 0 ∨ (s.regs.length : Int) ≤ i.toInt

/-- Register `i` exists and holds `v` (spec/10_state.md R21). -/
def Holds (s : State) (i v : Word) : Prop := 0 ≤ i.toInt ∧ s.regs[i.toNat]? = some v

/-- The operand names register `a` as a location (spec/40_register_file_and_operands.md R106, R107). -/
def Names (s : State) (o : Operand) (a : Word) : Prop :=
  match o with
  | .imm _ => False
  | .reg idx => a = idx ∧ ∃ v, Holds s a v
  | .ptr idx => Holds s idx a ∧ ∃ v, Holds s a v

/-- The operand can be read and its value is `v` (spec/40_register_file_and_operands.md R103). -/
def Reads (s : State) (o : Operand) (v : Word) : Prop :=
  match o with
  | .imm n => v = n
  | .reg idx => Holds s idx v
  | .ptr idx => ∃ a, Holds s idx a ∧ Holds s a v

/-- Resolving the operand meets the index `k` outside `[0, N)`, at the first hop or at the second
(spec/40_register_file_and_operands.md R107). -/
def Unresolvable (s : State) (o : Operand) (k : Word) : Prop :=
  match o with
  | .imm _ => False
  | .reg idx => k = idx ∧ OutOfBounds s idx
  | .ptr idx => (k = idx ∧ OutOfBounds s idx) ∨ (Holds s idx k ∧ OutOfBounds s k)

/-! ### The engine -/

/-- The word at the pc is `iw` (spec/20_memory.md R50). -/
def Fetches (s : State) (iw : IWord) : Prop := 0 ≤ s.pc.toInt ∧ s.imem[s.pc.toNat]? = some iw

/-- The pc is outside `[0, L)` (spec/43_fetch_execute_engine.md R161). -/
def PcOutside (s : State) : Prop := s.pc.toInt < 0 ∨ (s.imem.length : Int) ≤ s.pc.toInt

/-- The state is about to execute the word `iw`: Running, budget left, the pc at `iw`
(spec/43_fetch_execute_engine.md R160). -/
def Executes (s : State) (iw : IWord) : Prop :=
  s.status = .running ∧ s.steps ≠ s.budget ∧ Fetches s iw

/-- A run has ended when its status is not Running (spec/43_fetch_execute_engine.md R170). -/
def Ended (s : State) : Prop := s.status ≠ .running

/-- `n` steps lead from `s` to `t`, without a stop. -/
def Reaches (n : Nat) (s t : State) : Prop := Host.Core.run Sys2Proof.core n s = .next t

/-- The word is rejected by the decoder with this fault, and a step that fetches it takes the fault:
`steps` is counted, the three outcome registers are written, nothing else changes
(spec/60_exceptions.md R187, R188). -/
def FaultsWhenExecuted (iw : IWord) (k : FaultKind) (info : Word) : Prop :=
  decode iw = .error ⟨k, info⟩ ∧
    ∀ s, Executes s iw →
      step s = .next
        { s with steps := s.steps + 1, status := .faulted, errKind := some k, errInfo := info }

/-! ### The fields of an instruction word, as numbers (spec/30_encoding.md R73, R91) -/

/-- `uval(iw[3:0])`. -/
def opNumber (iw : IWord) : Nat := iw.toNat % 16

/-- `uval(iw[5:4])`. -/
def cntNumber (iw : IWord) : Nat := iw.toNat / 16 % 4

/-- `uval(iw[7:6])`. -/
def m1Number (iw : IWord) : Nat := iw.toNat / 64 % 4

/-- `uval(iw[9:8])`. -/
def m2Number (iw : IWord) : Nat := iw.toNat / 256 % 4

/-- `uval(iw[9+IMM_W:10])`. -/
def v1Number (iw : IWord) : Nat := iw.toNat / 1024 % 2 ^ Config.immW

/-- `uval(iw[9+2*IMM_W:10+IMM_W])`. -/
def v2Number (iw : IWord) : Nat := iw.toNat / 2 ^ (10 + Config.immW)

/-- The arity column of spec/30_encoding.md R74 by opcode number. -/
def arityOfNumber (op : Nat) : Nat := [0, 2, 2, 2, 2, 1, 1, 1, 1, 0].getD op 0

/-- The operand that mode number `m` and value field `v` stand for (spec/30_encoding.md R76, R77). -/
def operandOfNumbers (m v : Nat) : Operand :=
  if m = 0 then .imm (BitVec.ofNat Config.xlen v) else if m = 1 then .reg (BitVec.ofNat Config.xlen v)
  else .ptr (BitVec.ofNat Config.xlen v)

/-- The instruction that the opcode number stands for with operands `o1`, `o2`
(spec/30_encoding.md R71, R74). -/
def instrOfNumber (op : Nat) (o1 o2 : Operand) : Instr :=
  [.blank, .mov o1 o2, .add o1 o2, .mul o1 o2, .cmp o1 o2, .jmp o1, .jeq o1, .jgt o1, .jlt o1,
    .halt].getD op .blank

/-- The mode number and the value of an operand (spec/30_encoding.md R76). -/
def operandNumbers : Operand → Nat × Nat
  | .imm v => (0, v.toNat)
  | .reg idx => (1, idx.toNat)
  | .ptr idx => (2, idx.toNat)

/-- The number of the canonical word with opcode number `op` and these operands (spec/30_encoding.md
R91). -/
def numberOfFields (op : Nat) : List Operand → Nat
  | [] => op
  | [o1] => op + 16 * 1 + 64 * (operandNumbers o1).1 + 1024 * (operandNumbers o1).2
  | o1 :: o2 :: _ => op + 16 * 2 + 64 * (operandNumbers o1).1 + 256 * (operandNumbers o2).1 +
      1024 * (operandNumbers o1).2 + 2 ^ (10 + Config.immW) * (operandNumbers o2).2

/-- The number of the canonical word of an instruction (spec/30_encoding.md R74, R91). -/
def wordNumber : Instr → Nat
  | .blank => numberOfFields 0 []
  | .mov dst src => numberOfFields 1 [dst, src]
  | .add dst src => numberOfFields 2 [dst, src]
  | .mul dst src => numberOfFields 3 [dst, src]
  | .cmp op1 op2 => numberOfFields 4 [op1, op2]
  | .jmp target => numberOfFields 5 [target]
  | .jeq target => numberOfFields 6 [target]
  | .jgt target => numberOfFields 7 [target]
  | .jlt target => numberOfFields 8 [target]
  | .halt => numberOfFields 9 []

/-! ### The invariant -/

/-- What the fault record of a state says of the word at its pc (spec/60_exceptions.md R180, R189): a
decode fault is the one the decoder gives that word; an index fault names an index outside `[0, N)` on
which an operand of the instruction at the pc cannot be resolved; a write fault names the immediate
destination of the MOV, ADD or MUL at the pc. -/
def Explains (s : State) (k : FaultKind) (info : Word) : Prop :=
  match k with
  | .invalidOperandFormat => ∃ iw, Fetches s iw ∧ decode iw = .error ⟨.invalidOperandFormat, info⟩
  | .unknownOpcode => ∃ iw, Fetches s iw ∧ decode iw = .error ⟨.unknownOpcode, info⟩
  | .arityMismatch => ∃ iw, Fetches s iw ∧ decode iw = .error ⟨.arityMismatch, info⟩
  | .registerOutOfRange =>
      OutOfBounds s info ∧
        ∃ iw i o, Fetches s iw ∧ decode iw = .ok i ∧ o ∈ i.operands ∧ Unresolvable s o info
  | .invalidWriteTarget =>
      ∃ iw src, Fetches s iw ∧
        (decode iw = .ok (.mov (.imm info) src) ∨ decode iw = .ok (.add (.imm info) src) ∨
          decode iw = .ok (.mul (.imm info) src))

/-- What holds in every state a launch can reach: the sizes are admitted (spec/00_scope.md R5), the step
counter has not passed the budget (spec/10_state.md R31), the fault record is empty exactly when the
run is not Faulted (R34, R35), and it explains the word at the pc (spec/60_exceptions.md R180, R189). -/
structure Inv (s : State) : Prop where
  registers_bounded : s.regs.length ≤ Config.maxLength
  store_bounded : s.imem.length ≤ Config.maxLength
  steps_bounded : s.steps.toNat ≤ s.budget.toNat
  fault_recorded : s.errKind ≠ none ↔ s.status = .faulted
  no_fault_no_info : s.errKind = none → s.errInfo = 0
  fault_explained : ∀ k, s.errKind = some k → Explains s k s.errInfo

/-- What holds in every state of the machine with the parameters `c` (spec/00_scope.md R5): `N`, `L` and
`BUDGET` within their bounds, every register, the pc and `err_info` a signed `XLEN`-bit value, every word
of `ILEN` bits, the step counter not above the budget (spec/10_state.md R31). -/
structure FitsAt (c : Config.Params) (s : IntState) : Prop where
  registers_bounded : s.regs.length ≤ c.maxLength
  store_bounded : s.imem.length ≤ c.maxLength
  budget_fits : s.budget < 2 ^ c.stepW
  steps_bounded : s.steps ≤ s.budget
  registers_fit : ∀ v ∈ s.regs, -2 ^ (c.xlen - 1) ≤ v ∧ v < 2 ^ (c.xlen - 1)
  pc_fits : -2 ^ (c.xlen - 1) ≤ s.pc ∧ s.pc < 2 ^ (c.xlen - 1)
  errInfo_fits : -2 ^ (c.xlen - 1) ≤ s.errInfo ∧ s.errInfo < 2 ^ (c.xlen - 1)
  words_fit : ∀ w ∈ s.imem, w < 2 ^ c.ilen

end Sys2Proof.Machine
end

