-- ==== Sys2Proof/Certificates/Slice0/Obligations.lean ====
section
/-!
DEFINITION. The statements about the model, each a proposition of its own. Their vocabulary is that of
Sys2Proof/Safety.lean; a record update written out in a statement says the whole next state, so it says
the frame too.
-/

open Sys2Proof Sys2Proof.Machine

/-! ### Encoding and decoding -/

/-- spec/30_encoding.md R91: the canonical encoder is the inverse of `Decode` on canonical words, and
the canonical word is the number the rule gives (absent operands having mode and value 0). -/
def Obligations.DecodeInvertsEncode : Prop :=
  ∀ i : Instr, i.wf = true →
    ∃ iw, encode i = some iw ∧ iw.toNat = wordNumber i ∧ decode iw = .ok i

/-- spec/30_encoding.md section 4 (the encoder's refusal): an operand whose number is `2^27` or more has
no encoding and is refused, not truncated. -/
def Obligations.EncoderRefusesOversizedOperands : Prop :=
  ∀ i : Instr, (∃ o ∈ i.operands, 2 ^ Config.immW ≤ o.value.toNat) → encode i = none

/-- spec/30_encoding.md sections 2 and 4, the other direction: a word that decodes and has zeros in its
ignored fields is the canonical word of the instruction it decodes to. -/
def Obligations.EncodeInvertsDecodeOnCanonicalWords : Prop :=
  ∀ (iw : IWord) (i : Instr), decode iw = .ok i →
    (arityOfNumber (opNumber iw) ≤ 1 → m2Number iw = 0 ∧ v2Number iw = 0) →
    (arityOfNumber (opNumber iw) = 0 → m1Number iw = 0 ∧ v1Number iw = 0) →
    encode i = some iw

/-- spec/30_encoding.md R81, R82, R83: the three kinds of illegal words and the fault each takes, in the
order the decoder tests them. -/
def Obligations.IllegalWordsFault : Prop :=
  ∀ iw : IWord,
    (10 ≤ opNumber iw → FaultsWhenExecuted iw .unknownOpcode (BitVec.ofNat Config.xlen (opNumber iw))) ∧
    (opNumber iw ≤ 9 → cntNumber iw ≠ arityOfNumber (opNumber iw) →
      FaultsWhenExecuted iw .arityMismatch (BitVec.ofNat Config.xlen (cntNumber iw))) ∧
    (opNumber iw ≤ 9 → cntNumber iw = arityOfNumber (opNumber iw) →
      1 ≤ arityOfNumber (opNumber iw) → m1Number iw = 3 →
      FaultsWhenExecuted iw .invalidOperandFormat 1) ∧
    (opNumber iw ≤ 9 → cntNumber iw = arityOfNumber (opNumber iw) →
      arityOfNumber (opNumber iw) = 2 → m1Number iw ≠ 3 → m2Number iw = 3 →
      FaultsWhenExecuted iw .invalidOperandFormat 2)

/-- spec/30_encoding.md R77 (with the opcode map of R74, R84): every other word decodes, to the
instruction of its opcode number with the zero-extended value fields as its operands; an operand is
never negative and at most `2^27 - 1`. -/
def Obligations.LegalWordsDecode : Prop :=
  ∀ iw : IWord, opNumber iw ≤ 9 → cntNumber iw = arityOfNumber (opNumber iw) →
    (1 ≤ arityOfNumber (opNumber iw) → m1Number iw ≠ 3) →
    (arityOfNumber (opNumber iw) = 2 → m2Number iw ≠ 3) →
    ∃ i, decode iw = .ok i ∧
      i = instrOfNumber (opNumber iw) (operandOfNumbers (m1Number iw) (v1Number iw))
        (operandOfNumbers (m2Number iw) (v2Number iw)) ∧
      ∀ o ∈ i.operands, 0 ≤ o.value.toInt ∧ o.value.toInt ≤ 2 ^ Config.immW - 1

/-- spec/30_encoding.md R80: the fields of an unused slot are ignored, so `Decode` is not injective; the
canonical encoding has zeros there. -/
def Obligations.UnusedFieldsAreIgnored : Prop :=
  (∀ iw iw' : IWord, opNumber iw = opNumber iw' → cntNumber iw = cntNumber iw' →
    (1 ≤ arityOfNumber (opNumber iw) → m1Number iw = m1Number iw' ∧ v1Number iw = v1Number iw') →
    (arityOfNumber (opNumber iw) = 2 → m2Number iw = m2Number iw' ∧ v2Number iw = v2Number iw') →
    decode iw = decode iw') ∧
  (∃ (iw iw' : IWord) (i : Instr), iw ≠ iw' ∧ decode iw = .ok i ∧ decode iw' = .ok i) ∧
  (∀ (i : Instr) (iw : IWord), encode i = some iw →
    (arityOfNumber (opNumber iw) ≤ 1 → m2Number iw = 0 ∧ v2Number iw = 0) ∧
    (arityOfNumber (opNumber iw) = 0 → m1Number iw = 0 ∧ v1Number iw = 0))

/-- spec/30_encoding.md R79: the blank instruction is the word whose low six bits are 0, its canonical
word is all zeros, and opcode number 0 with any operand count is an arity fault. -/
def Obligations.BlankWords : Prop :=
  (∀ iw : IWord, decode iw = .ok .blank ↔ iw.toNat % 64 = 0) ∧
  encode .blank = some 0 ∧
  (∀ iw : IWord, opNumber iw = 0 → cntNumber iw ≠ 0 →
    FaultsWhenExecuted iw .arityMismatch (BitVec.ofNat Config.xlen (cntNumber iw)))

/-- spec/95_test_vectors.md section 2.1: a few words of the table, one of each family, decode to the
instruction the table gives. -/
def Obligations.SampleWordsDecode : Prop :=
  decode 0x00000C60000000A1 = .ok (.mov (.ptr 0) (.imm 99)) ∧
  decode 0x0000000000000563 = .ok (.mul (.reg 1) (.reg 0)) ∧
  decode 0x0000002000000164 = .ok (.cmp (.reg 0) (.reg 1)) ∧
  decode 0x000000A000001F15 = .ok (.jmp (.imm 7)) ∧
  decode 0xFFFFFFFFFFFFFFC9 = .ok .halt ∧
  decode 0xFFFFFFFFFFFFFFC0 = .ok .blank ∧
  decode 0x0000002000000171 = .error ⟨.arityMismatch, 3⟩ ∧
  decode 0xFFFFFFFFFFFFFFFF = .error ⟨.unknownOpcode, 15⟩

/-- spec/20_memory.md section 2 (the spec's serialisation convention, assumption 10): byte `k` of a
serialised word holds its bits `8k+7 .. 8k`, and the bytes give the word back. -/
def Obligations.WordBytesAreLittleEndian : Prop :=
  ∀ iw : IWord,
    (bytesOfWord iw).length = Config.wordBytes ∧
    (∀ k, k < Config.wordBytes → ∃ b, (bytesOfWord iw)[k]? = some b ∧ b.toNat = iw.toNat / 256 ^ k % 256) ∧
    wordOfBytes (bytesOfWord iw) = iw

/-! ### The register file and the operand resolver -/

/-- spec/40_register_file_and_operands.md R100: a bounds-checked read answers the content of the
register, or RegisterOutOfRange with the index; every index is one or the other. -/
def Obligations.RegisterRead : Prop :=
  ∀ (s : State) (i : Word),
    (∀ v, Holds s i v → regRead s i = .ok v) ∧
    (OutOfBounds s i → regRead s i = .error ⟨.registerOutOfRange, i⟩) ∧
    ((∃ v, Holds s i v) ∨ OutOfBounds s i)

/-- spec/40_register_file_and_operands.md R101: a bounds-checked write changes exactly the register it
names, or fails with RegisterOutOfRange and writes nothing. -/
def Obligations.RegisterWrite : Prop :=
  ∀ (s : State) (i v : Word),
    (∀ w, Holds s i w →
      ∃ t, regWrite s i v = .ok t ∧ t = { s with regs := s.regs.set i.toNat v } ∧ Holds t i v ∧
        ∀ j u, j ≠ i → (Holds t j u ↔ Holds s j u)) ∧
    (OutOfBounds s i → regWrite s i v = .error ⟨.registerOutOfRange, i⟩)

/-- spec/40_register_file_and_operands.md R103: the value of an operand in each addressing mode, and
the index on which its resolution fails. -/
def Obligations.OperandRead : Prop :=
  ∀ (s : State) (o : Operand),
    (∀ v, Reads s o v → resolveRead s o = .ok v) ∧
    (∀ k, Unresolvable s o k → resolveRead s o = .error ⟨.registerOutOfRange, k⟩)

/-- spec/40_register_file_and_operands.md R104: the write of a value through an operand in each mode;
an immediate is never a write target; a pointer register is only read. -/
def Obligations.OperandWrite : Prop :=
  ∀ (s : State) (o : Operand) (v : Word),
    (∀ n, o = .imm n → resolveWrite s v o = .error ⟨.invalidWriteTarget, n⟩) ∧
    (∀ a, Names s o a → resolveWrite s v o = .ok { s with regs := s.regs.set a.toNat v }) ∧
    (∀ k, Unresolvable s o k → resolveWrite s v o = .error ⟨.registerOutOfRange, k⟩)

/-- spec/40_register_file_and_operands.md section 3: everything the resolver can answer, for reading and
for writing; every operand either has exactly one value or fails on exactly one index, never both. -/
def Obligations.OperandReadsOrFails : Prop :=
  ∀ (s : State) (o : Operand),
    (∀ v, resolveRead s o = .ok v ↔ Reads s o v) ∧
    (∀ r, resolveRead s o = .error r ↔ ∃ k, Unresolvable s o k ∧ r = ⟨.registerOutOfRange, k⟩) ∧
    (∀ w t, resolveWrite s w o = .ok t ↔
      ∃ a, Names s o a ∧ t = { s with regs := s.regs.set a.toNat w }) ∧
    (∀ w r, resolveWrite s w o = .error r ↔
      (∃ n, o = .imm n ∧ r = ⟨.invalidWriteTarget, n⟩) ∨
        ∃ k, Unresolvable s o k ∧ r = ⟨.registerOutOfRange, k⟩) ∧
    (((∃ v, Reads s o v ∧ ∀ w, Reads s o w → w = v) ∧ ∀ k, ¬ Unresolvable s o k) ∨
      ((∃ k, Unresolvable s o k ∧ ∀ j, Unresolvable s o j → j = k) ∧ ∀ v, ¬ Reads s o v))

/-- spec/40_register_file_and_operands.md R108: a destination that was read resolves to the same
register for the write, and the second resolution cannot fault. -/
def Obligations.DestinationResolvesTwiceAlike : Prop :=
  ∀ (s : State) (o : Operand) (v : Word), (∀ n, o ≠ .imm n) → resolveRead s o = .ok v →
    ∃ a, Names s o a ∧ Holds s a v ∧
      ∀ w, resolveWrite s w o = .ok { s with regs := s.regs.set a.toNat w }

/-! ### The data instructions -/

/-- spec/41_alu_data.md R121: MOV. Its encoding; the copy, with everything else unchanged but the pc;
and its faults in the order tested (source first, then the destination). -/
def Obligations.MovCopiesSourceToDestination : Prop :=
  (∀ (iw : IWord) (dst src : Operand), decode iw = .ok (.mov dst src) → iw.toNat % 64 = 0x21) ∧
  ∀ (s : State) (dst src : Operand),
    (∀ a v, Names s dst a → Reads s src v →
      exec (.mov dst src) s =
        .next { s with regs := s.regs.set a.toNat v, pc := s.pc + 1 }) ∧
    (∀ k, Unresolvable s src k →
      exec (.mov dst src) s =
        .next { s with status := .faulted, errKind := some .registerOutOfRange, errInfo := k }) ∧
    (∀ n v, dst = .imm n → Reads s src v →
      exec (.mov dst src) s =
        .next { s with status := .faulted, errKind := some .invalidWriteTarget, errInfo := n }) ∧
    (∀ k v, Unresolvable s dst k → Reads s src v →
      exec (.mov dst src) s =
        .next { s with status := .faulted, errKind := some .registerOutOfRange, errInfo := k })

/-- spec/41_alu_data.md R122, R125: ADD. Its encoding; the sum modulo `2^64`, which is congruent to the
sum of the signed values; the frame; and its faults in the order tested. -/
def Obligations.AddWrapsIntoDestination : Prop :=
  (∀ (iw : IWord) (dst src : Operand), decode iw = .ok (.add dst src) → iw.toNat % 64 = 0x22) ∧
  ∀ (s : State) (dst src : Operand),
    (∀ a x y, Names s dst a → Holds s a x → Reads s src y →
      ∃ r : Word, r.toNat = (x.toNat + y.toNat) % 2 ^ Config.xlen ∧
        ((2 : Int) ^ Config.xlen) ∣ (r.toInt - (x.toInt + y.toInt)) ∧
        exec (.add dst src) s =
          .next { s with regs := s.regs.set a.toNat r, pc := s.pc + 1 }) ∧
    (∀ k, Unresolvable s dst k →
      exec (.add dst src) s =
        .next { s with status := .faulted, errKind := some .registerOutOfRange, errInfo := k }) ∧
    (∀ k x, Reads s dst x → Unresolvable s src k →
      exec (.add dst src) s =
        .next { s with status := .faulted, errKind := some .registerOutOfRange, errInfo := k }) ∧
    (∀ n y, dst = .imm n → Reads s src y →
      exec (.add dst src) s =
        .next { s with status := .faulted, errKind := some .invalidWriteTarget, errInfo := n })

/-- spec/41_alu_data.md R123, R126: MUL. As ADD, with the low 64 bits of the product, which are
congruent to the product of the signed values. -/
def Obligations.MulKeepsLowBitsInDestination : Prop :=
  (∀ (iw : IWord) (dst src : Operand), decode iw = .ok (.mul dst src) → iw.toNat % 64 = 0x23) ∧
  ∀ (s : State) (dst src : Operand),
    (∀ a x y, Names s dst a → Holds s a x → Reads s src y →
      ∃ r : Word, r.toNat = x.toNat * y.toNat % 2 ^ Config.xlen ∧
        ((2 : Int) ^ Config.xlen) ∣ (r.toInt - x.toInt * y.toInt) ∧
        exec (.mul dst src) s =
          .next { s with regs := s.regs.set a.toNat r, pc := s.pc + 1 }) ∧
    (∀ k, Unresolvable s dst k →
      exec (.mul dst src) s =
        .next { s with status := .faulted, errKind := some .registerOutOfRange, errInfo := k }) ∧
    (∀ k x, Reads s dst x → Unresolvable s src k →
      exec (.mul dst src) s =
        .next { s with status := .faulted, errKind := some .registerOutOfRange, errInfo := k }) ∧
    (∀ n y, dst = .imm n → Reads s src y →
      exec (.mul dst src) s =
        .next { s with status := .faulted, errKind := some .invalidWriteTarget, errInfo := n })

/-- spec/41_alu_data.md R124, R127: CMP. Its encoding; the flag by the signed comparison, exactly one of
three outcomes for every pair, no register written; on a fault the flag keeps its value. -/
def Obligations.CmpSetsFlagBySignedOrder : Prop :=
  (∀ (iw : IWord) (op1 op2 : Operand), decode iw = .ok (.cmp op1 op2) → iw.toNat % 64 = 0x24) ∧
  ∀ (s : State) (op1 op2 : Operand),
    (∀ x y, Reads s op1 x → Reads s op2 y →
      (x.toInt < y.toInt ∨ y.toInt < x.toInt ∨ x = y) ∧
      (x.toInt < y.toInt →
        exec (.cmp op1 op2) s = .next { s with flag := .lessThan, pc := s.pc + 1 }) ∧
      (y.toInt < x.toInt →
        exec (.cmp op1 op2) s = .next { s with flag := .greaterThan, pc := s.pc + 1 }) ∧
      (x = y →
        exec (.cmp op1 op2) s = .next { s with flag := .equal, pc := s.pc + 1 })) ∧
    (∀ k, Unresolvable s op1 k →
      exec (.cmp op1 op2) s =
        .next { s with status := .faulted, errKind := some .registerOutOfRange, errInfo := k }) ∧
    (∀ k x, Reads s op1 x → Unresolvable s op2 k →
      exec (.cmp op1 op2) s =
        .next { s with status := .faulted, errKind := some .registerOutOfRange, errInfo := k })

/-- spec/70_reset_and_hazards.md section 4: the register a MOV wrote is read with its new value by the
next instruction, as a source, as a pointer and as a jump target. -/
def Obligations.WrittenRegisterIsReadNext : Prop :=
  ∀ (s : State) (dst src : Operand) (a v : Word), Names s dst a → Reads s src v →
    ∃ t, exec (.mov dst src) s = .next t ∧ Reads t (.reg a) v ∧
      (∀ b, Holds t v b → Reads t (.ptr a) b) ∧
      exec (.jmp (.reg a)) t = .next { t with pc := v }

/-! ### Control transfer -/

/-- spec/42_control_transfer.md R141 (and R140): JMP. Its encoding, slot 2 ignored; the pc takes the
value of the target, whatever it is; a target that cannot be resolved faults. -/
def Obligations.JmpTakesTargetVerbatim : Prop :=
  (∀ (iw : IWord) (target : Operand), decode iw = .ok (.jmp target) → iw.toNat % 64 = 0x15) ∧
  (∀ iw : IWord, iw.toNat % 64 = 0x15 → m1Number iw ≠ 3 →
    decode iw = .ok (.jmp (operandOfNumbers (m1Number iw) (v1Number iw)))) ∧
  ∀ (s : State) (target : Operand),
    (∀ t, Reads s target t → exec (.jmp target) s = .next { s with pc := t }) ∧
    (∀ k, Unresolvable s target k →
      exec (.jmp target) s =
        .next { s with status := .faulted, errKind := some .registerOutOfRange, errInfo := k })

/-- spec/42_control_transfer.md R142, R143, R144: JEQ, JGT, JLT. Their encodings; a malformed target
faults whether or not the jump would be taken; taken exactly on their flag value, and not taken without
resolving the target. -/
def Obligations.ConditionalJumpsFollowTheFlag : Prop :=
  ∀ (jump : Operand → Instr) (want : ComparisonFlag) (code : Nat),
    (jump, want, code) ∈ ([(Instr.jeq, .equal, 0x16), (Instr.jgt, .greaterThan, 0x17),
      (Instr.jlt, .lessThan, 0x18)] : List ((Operand → Instr) × ComparisonFlag × Nat)) →
    (∀ (iw : IWord) (target : Operand), decode iw = .ok (jump target) → iw.toNat % 64 = code) ∧
    (∀ iw : IWord, iw.toNat % 64 = code → m1Number iw = 3 →
      FaultsWhenExecuted iw .invalidOperandFormat 1) ∧
    ∀ (s : State) (target : Operand),
      (∀ t, s.flag = want → Reads s target t → exec (jump target) s = .next { s with pc := t }) ∧
      (∀ k, s.flag = want → Unresolvable s target k →
        exec (jump target) s =
          .next { s with status := .faulted, errKind := some .registerOutOfRange, errInfo := k }) ∧
      (s.flag ≠ want → exec (jump target) s = .next { s with pc := s.pc + 1 })

/-- spec/42_control_transfer.md R147: the flag is Equal at launch; which jumps are taken for each value
of the flag; and which after a CMP: JMP always, and exactly the one of JEQ, JGT, JLT that the order of
the operands selects. -/
def Obligations.CompareThenJump : Prop :=
  (∀ (l : LaunchItems) (s : State), launch l = .next s → s.flag = .equal) ∧
  (∀ (s : State) (target : Operand) (t : Word), Reads s target t →
    exec (.jmp target) s = .next { s with pc := t } ∧
    exec (.jeq target) s = .next { s with pc := if s.flag = .equal then t else s.pc + 1 } ∧
    exec (.jgt target) s = .next { s with pc := if s.flag = .greaterThan then t else s.pc + 1 } ∧
    exec (.jlt target) s = .next { s with pc := if s.flag = .lessThan then t else s.pc + 1 }) ∧
  ∀ (s : State) (op1 op2 target : Operand) (x y t : Word),
    Reads s op1 x → Reads s op2 y → Reads s target t →
    ∃ u, exec (.cmp op1 op2) s = .next u ∧
      exec (.jmp target) u = .next { u with pc := t } ∧
      exec (.jeq target) u = .next { u with pc := if x = y then t else u.pc + 1 } ∧
      exec (.jgt target) u = .next { u with pc := if y.toInt < x.toInt then t else u.pc + 1 } ∧
      exec (.jlt target) u = .next { u with pc := if x.toInt < y.toInt then t else u.pc + 1 }

/-- spec/42_control_transfer.md R145: HALT. Its words; only the status changes, and the step that ran it
is counted. -/
def Obligations.HaltEndsTheRun : Prop :=
  (∀ iw : IWord, decode iw = .ok .halt ↔ iw.toNat % 64 = 0x09) ∧
  (∀ s : State, exec .halt s = .next { s with status := .halted }) ∧
  (∀ (s : State) (iw : IWord), Executes s iw → iw.toNat % 64 = 0x09 →
    step s = .next { s with steps := s.steps + 1, status := .halted })

/-- spec/42_control_transfer.md R146: the blank instruction. Its words; only the pc advances, and the
step that ran it is counted. -/
def Obligations.BlankAdvancesThePc : Prop :=
  (∀ iw : IWord, decode iw = .ok .blank ↔ iw.toNat % 64 = 0x00) ∧
  (∀ s : State, exec .blank s = .next { s with pc := s.pc + 1 }) ∧
  (∀ (s : State) (iw : IWord), Executes s iw → iw.toNat % 64 = 0x00 →
    step s = .next { s with steps := s.steps + 1, pc := s.pc + 1 })

/-- spec/42_control_transfer.md R148: the pc after a step that fetched an instruction, by outcome. -/
def Obligations.NextPcByOutcome : Prop :=
  ∀ (s t : State) (iw : IWord), Executes s iw → step s = .next t →
    (t.status = .faulted → t.pc = s.pc) ∧
    (decode iw = .ok .halt → t.pc = s.pc) ∧
    (decode iw = .ok .blank → t.pc = s.pc + 1) ∧
    (t.status ≠ .faulted →
      (∀ o1 o2, decode iw = .ok (.mov o1 o2) ∨ decode iw = .ok (.add o1 o2) ∨
        decode iw = .ok (.mul o1 o2) ∨ decode iw = .ok (.cmp o1 o2) → t.pc = s.pc + 1) ∧
      (∀ o, decode iw = .ok (.jmp o) → Reads s o t.pc) ∧
      (∀ o, decode iw = .ok (.jeq o) →
        (s.flag = .equal → Reads s o t.pc) ∧ (s.flag ≠ .equal → t.pc = s.pc + 1)) ∧
      (∀ o, decode iw = .ok (.jgt o) →
        (s.flag = .greaterThan → Reads s o t.pc) ∧ (s.flag ≠ .greaterThan → t.pc = s.pc + 1)) ∧
      (∀ o, decode iw = .ok (.jlt o) →
        (s.flag = .lessThan → Reads s o t.pc) ∧ (s.flag ≠ .lessThan → t.pc = s.pc + 1)))

/-! ### Rules of the whole machine -/

/-- spec/10_state.md R23: only MOV, ADD and MUL write a register; each that completes writes exactly
one, the one its first operand names. -/
def Obligations.OnlyMovAddMulWriteRegisters : Prop :=
  ∀ s t : State, step s = .next t →
    (t.regs = s.regs ∨
      ∃ (iw : IWord) (dst src : Operand), Executes s iw ∧
        (decode iw = .ok (.mov dst src) ∨ decode iw = .ok (.add dst src) ∨
          decode iw = .ok (.mul dst src))) ∧
    (∀ (iw : IWord) (dst src : Operand), Executes s iw →
      (decode iw = .ok (.mov dst src) ∨ decode iw = .ok (.add dst src) ∨
        decode iw = .ok (.mul dst src)) →
      t.status ≠ .faulted → ∃ a v, Names s dst a ∧ t.regs = s.regs.set a.toNat v)

/-- spec/10_state.md R29: the flag is set only by CMP, read only by the conditional jumps (every other
instruction does the same whatever the flag was, CMP sets the same new flag, the rest keep the flag), and
Equal after a launch. -/
def Obligations.FlagIsSetByCmpAndReadByConditionalJumps : Prop :=
  (∀ s t : State, step s = .next t → t.flag ≠ s.flag →
    ∃ (iw : IWord) (op1 op2 : Operand), Executes s iw ∧ decode iw = .ok (.cmp op1 op2)) ∧
  (∀ (i : Instr) (s t : State) (f : ComparisonFlag),
    (∀ o, i ≠ .jeq o ∧ i ≠ .jgt o ∧ i ≠ .jlt o) → exec i s = .next t →
    ∃ t', exec i { s with flag := f } = .next t' ∧ { t' with flag := t.flag } = t ∧
      (∀ op1 op2 x y, i = .cmp op1 op2 → Reads s op1 x → Reads s op2 y → t'.flag = t.flag) ∧
      ((∀ op1 op2, i ≠ .cmp op1 op2) → t'.flag = f ∧ t.flag = s.flag)) ∧
  (∀ (l : LaunchItems) (s : State), launch l = .next s → s.flag = .equal)

/-- spec/10_state.md R38: the instruction store, the number of registers and the budget never change. -/
def Obligations.RunParametersNeverChange : Prop :=
  ∀ s t : State, step s = .next t →
    t.imem = s.imem ∧ t.imem.length = s.imem.length ∧ t.budget = s.budget ∧
      t.regs.length = s.regs.length

/-- spec/10_state.md R31: the step counter starts at 0, counts exactly the steps that pass the
termination test, and, not above the budget, never wraps and never passes it. -/
def Obligations.StepsAreCounted : Prop :=
  (∀ (l : LaunchItems) (s : State), launch l = .next s → s.steps = 0) ∧
  ∀ s t : State, step s = .next t →
    (s.status = .running → ¬ PcOutside s → s.steps ≠ s.budget →
      t.steps = s.steps + 1 ∧
      (s.steps.toNat ≤ s.budget.toNat →
        t.steps.toNat = s.steps.toNat + 1 ∧ t.steps.toNat ≤ t.budget.toNat)) ∧
    (Ended s ∨ PcOutside s ∨ s.steps = s.budget → t.steps = s.steps)

/-! ### The engine -/

/-- spec/43_fetch_execute_engine.md section 2: a step counts itself and then runs the instruction that
the word at the pc decodes to. -/
def Obligations.StepRunsTheDecodedInstruction : Prop :=
  ∀ (s : State) (iw : IWord) (i : Instr), Executes s iw → decode iw = .ok i →
    step s = exec i { s with steps := s.steps + 1 }

/-- spec/43_fetch_execute_engine.md R161: the termination test comes first; either condition ends the
run and changes the status only; when it passes, the word at the pc is fetched and counted. -/
def Obligations.TerminationTestComesFirst : Prop :=
  ∀ s : State, s.status = .running →
    (PcOutside s ∨ s.steps = s.budget → step s = .next { s with status := .halted }) ∧
    (s.imem = [] → step s = .next { s with status := .halted }) ∧
    (¬ PcOutside s → s.steps ≠ s.budget →
      ∃ iw t, Fetches s iw ∧ step s = .next t ∧ t.steps = s.steps + 1)

/-- spec/43_fetch_execute_engine.md R167: a terminal state's step changes nothing. -/
def Obligations.TerminalStatesAreKept : Prop :=
  ∀ s : State, s.status = .halted ∨ s.status = .faulted → step s = .next s

/-- spec/43_fetch_execute_engine.md section 2: `Step` is total: every state, reachable or not, has a next
state; the step never stops with a fault or a refusal of the model. -/
def Obligations.EveryStateHasANextState : Prop :=
  ∀ s : State, ∃ t, step s = .next t

/-- spec/43_fetch_execute_engine.md section 2 (no validation of the program): a step depends on the word
at the pc and on the length of the store, on no other word of it. -/
def Obligations.OnlyTheFetchedWordMatters : Prop :=
  ∀ (s t : State) (store : List IWord), store.length = s.imem.length →
    store[s.pc.toNat]? = s.imem[s.pc.toNat]? → step s = .next t →
    step { s with imem := store } = .next { t with imem := store }

/-- spec/60_exceptions.md R187, R188: a step that ends Faulted has counted itself and written the three
outcome registers; no register, no flag and no pc is changed. -/
def Obligations.FaultsArePrecise : Prop :=
  ∀ s t : State, s.status = .running → step s = .next t → t.status = .faulted →
    ∃ (iw : IWord) (k : FaultKind) (info : Word), Executes s iw ∧
      t = { s with steps := s.steps + 1, status := .faulted, errKind := some k, errInfo := info }

/-- spec/43_fetch_execute_engine.md R170: a run ends Halted in exactly three ways: the pc is outside the
store, the budget is reached, or a HALT was executed. -/
def Obligations.RunsHaltInThreeWays : Prop :=
  ∀ s t : State, s.status = .running → step s = .next t →
    (t.status = .halted ↔
      PcOutside s ∨ s.steps = s.budget ∨ ∃ iw, Executes s iw ∧ decode iw = .ok .halt) ∧
    (t.status = .halted → t.regs = s.regs ∧ t.pc = s.pc ∧ t.flag = s.flag ∧
      t.errKind = s.errKind ∧ t.errInfo = s.errInfo)

/-! ### Launch, read-out, result -/

/-- spec/70_reset_and_hazards.md R210, R212: an admitted launch sets every element of the state; a launch
with an item that breaks a constraint is refused. -/
def Obligations.LaunchSetsEveryElement : Prop :=
  ∀ l : LaunchItems,
    (l.init.length ≤ Config.maxLength → l.imem.length ≤ Config.maxLength →
      (∀ n ∈ l.init, -2 ^ (Config.xlen - 1) ≤ n ∧ n < 2 ^ (Config.xlen - 1)) →
      (∀ b, l.budget = some b → 0 ≤ b ∧ b ≤ 2 ^ Config.stepW - 1) →
      ∃ s, launch l = .next s ∧ s.regs.map BitVec.toInt = l.init ∧ s.pc = 0 ∧ s.flag = .equal ∧
        s.steps = 0 ∧ s.status = .running ∧ s.errKind = none ∧ s.errInfo = 0 ∧ s.imem = l.imem ∧
        (∀ b, l.budget = some b → (s.budget.toNat : Int) = b) ∧
        (l.budget = none → s.budget.toNat = 500000)) ∧
    (Config.maxLength < l.init.length ∨ Config.maxLength < l.imem.length ∨
      (∃ n ∈ l.init, n < -2 ^ (Config.xlen - 1) ∨ 2 ^ (Config.xlen - 1) ≤ n) ∨
      (∃ b, l.budget = some b ∧ (b < 0 ∨ 2 ^ Config.stepW - 1 < b)) →
      launch l = .refused .launchNotAdmitted)

/-- The state after reset has the values of spec/10_state.md section 7 and the default budget, and is the
launch of 16 registers holding 0 and an empty store. The number of registers, their values and the empty
store are the MODEL's choice (assumptions 2, 3, 4), not the spec's. -/
def Obligations.ResetIsALaunch : Prop :=
  launch { init := List.replicate 16 0, imem := [], budget := none } = .next State.reset ∧
  State.reset.pc = 0 ∧ State.reset.flag = .equal ∧ State.reset.steps = 0 ∧
  State.reset.status = .running ∧ State.reset.errKind = none ∧ State.reset.errInfo = 0 ∧
  State.reset.budget.toNat = 500000

/-- spec/70_reset_and_hazards.md R214, with the codes of spec/10_state.md R30, R33 and R34: the host reads
every element of an ended run. That the read-out of a Running core is refused is the MODEL's choice
(DESIGN CHOICE, assumption 13): the rule gives that transaction no meaning. -/
def Obligations.ReadOutAfterTheRun : Prop :=
  ∀ s : State,
    (s.status = .running → readOut s = .refused .readOutWhileRunning) ∧
    (Ended s → ∃ r, readOut s = .next r ∧ r.regs = s.regs ∧ r.pc = s.pc ∧ r.steps = s.steps ∧
      r.errInfo = s.errInfo ∧
      r.status = (match s.status with | .running => 0 | .halted => 1 | .faulted => 2) ∧
      r.flag = (match s.flag with | .equal => 0 | .lessThan => 1 | .greaterThan => 2) ∧
      r.errKind = (match s.errKind with
        | none => 0
        | some .invalidOperandFormat => 1
        | some .unknownOpcode => 2
        | some .arityMismatch => 3
        | some .registerOutOfRange => 4
        | some .invalidWriteTarget => 5))

/-- spec/43_fetch_execute_engine.md R169: the result of a run from a launch: of a Halted run the register
vector, as long as the initial one; of a Faulted run the error. -/
def Obligations.ResultOfARun : Prop :=
  ∀ (l : LaunchItems) (s t : State) (n : Nat), launch l = .next s → Reaches n s t →
    (t.status = .halted → runResult t = some (.registers t.regs) ∧ t.regs.length = l.init.length) ∧
    (t.status = .faulted → ∃ k, t.errKind = some k ∧ runResult t = some (.error k t.errInfo)) ∧
    (t.status = .running → runResult t = none)

/-- How the host places an instruction (the model's own operation, assumption 4): the next step of
`s.withFetchWord nbits w` executes that word, whatever the state was. -/
def Obligations.PlacedWordIsExecuted : Prop :=
  ∀ (s : State) (nbits w : Nat), Executes (s.withFetchWord nbits w) (tableWord nbits w)

/-! ### Text -/

/-- spec/30_encoding.md section 4: a line of separators only is the blank instruction (which characters
are whitespace is the model's choice, assumption 11). -/
def Obligations.SeparatorLineAssemblesToBlank : Prop :=
  ∀ line : List Char, (∀ c ∈ line, isSeparator c = true) →
    assemble line = some 0 ∧ decode 0 = .ok .blank

/-- spec/30_encoding.md section 4: the word of a malformed line faults as its text: an unknown mnemonic,
a wrong number of operands, a malformed operand token, in this order (tokens are those of assumption 11). -/
def Obligations.MalformedTextFaultsAsItsText : Prop :=
  ∀ (line : List Char) (t : List Char) (ts : List (List Char)) (iw : IWord),
    tokens line = t :: ts → assemble line = some iw →
    (opcodeOfMnemonic t = none → FaultsWhenExecuted iw .unknownOpcode 15) ∧
    (∀ op, opcodeOfMnemonic t = some op → ts.length ≠ arity op →
      FaultsWhenExecuted iw .arityMismatch (BitVec.ofNat Config.xlen (min ts.length 3))) ∧
    (∀ op t1 rest, opcodeOfMnemonic t = some op → ts.length = arity op → ts = t1 :: rest →
      operandToken t1 = none → FaultsWhenExecuted iw .invalidOperandFormat 1) ∧
    (∀ op t1 t2, opcodeOfMnemonic t = some op → ts.length = arity op → ts = [t1, t2] →
      operandToken t1 ≠ none → operandToken t2 = none →
      FaultsWhenExecuted iw .invalidOperandFormat 2)

/-! ### Headlines -/

/-- The invariant of Sys2Proof/Safety.lean holds of the state after reset. -/
def Obligations.InvariantHoldsAtReset : Prop := Inv State.reset

/-- The invariant holds of every launched state (spec/70_reset_and_hazards.md section 2). -/
def Obligations.InvariantHoldsAtLaunch : Prop :=
  ∀ (l : LaunchItems) (s : State), launch l = .next s → Inv s

/-- Every step keeps the invariant: the step counter stays within the budget (spec/10_state.md R31), the
fault record is empty exactly when the run is not Faulted (R34, R35), and the recorded fault is the one
the word at the pc explains (spec/60_exceptions.md R180, R189). -/
def Obligations.InvariantKeptByEveryStep : Prop :=
  ∀ s t : State, Inv s → step s = .next t → Inv t

/-- spec/43_fetch_execute_engine.md R168: every run is finite: it has ended after the steps the budget
leaves and one terminating step more. -/
def Obligations.EveryRunEnds : Prop :=
  (∀ s : State, s.steps.toNat ≤ s.budget.toNat →
    ∃ t, Reaches (s.budget.toNat - s.steps.toNat + 1) s t ∧ Ended t) ∧
  (∀ (l : LaunchItems) (s : State), launch l = .next s →
    ∃ t, Reaches (s.budget.toNat + 1) s t ∧ Ended t)

/-- spec/43_fetch_execute_engine.md R171: a launched run that neither halts nor faults within its budget
executes exactly BUDGET instructions and ends Halted at call BUDGET + 1 of `Step`. -/
def Obligations.ExactStepCountUnderBudget : Prop :=
  ∀ (l : LaunchItems) (s t : State), launch l = .next s → Reaches s.budget.toNat s t →
    t.status = .running →
    t.steps = s.budget ∧ Reaches (s.budget.toNat + 1) s { t with status := .halted }

/-- spec/41_alu_data.md R129: from the same launch items, as long as every value of the unbounded run is
in the signed `XLEN`-bit range, the hardware and the source's formulas over the integers go through the
same states. -/
def Obligations.AgreesWithUnboundedIntegers : Prop :=
  ∀ (l : LaunchItems) (s : State) (n : Nat), launch l = .next s →
    (∀ k, k ≤ n → ∀ v ∈ (unboundedRun k (intLaunch l.asNumbers)).regs,
      -2 ^ (Config.xlen - 1) ≤ v ∧ v < 2 ^ (Config.xlen - 1)) →
    ∃ t, Reaches n s t ∧ intView t = unboundedRun n (intLaunch l.asNumbers)

/-! ### The parameters -/

/-- spec/00_scope.md R5: the core is the machine that takes the parameters as an argument, at this
hardware's parameters: their launches admit the same items and give the same state, and one step of the
core is one step of that machine. -/
def Obligations.CoreIsTheParametricMachine : Prop :=
  (∀ l : LaunchItems,
    (∃ s, launch l = .next s ∧ parametricLaunch Config.params l.asNumbers = some (intView s)) ∨
    (launch l = .refused .launchNotAdmitted ∧ parametricLaunch Config.params l.asNumbers = none)) ∧
  (∀ s : State, s.steps.toNat ≤ s.budget.toNat →
    ∃ t, step s = .next t ∧ parametricStep Config.params (intView s) = intView t)

/-- spec/30_encoding.md section 4, for every admitted `IMM_W`: the canonical word of an instruction whose
operands fit is a word of `ILEN` bits and decodes to it. -/
def Obligations.ParametricDecodeInvertsEncode : Prop :=
  ∀ (c : Config.Params) (i : IntInstr), (∀ o ∈ i.operands, o.value < 2 ^ c.immW) →
    ∃ iw, intEncode c.immW i = some iw ∧ iw < 2 ^ c.ilen ∧ intDecode c.immW iw = .ok i

/-- spec/00_scope.md R5 with R11, for every choice of the parameters: a launch gives a state within the
widths, and every step keeps it so. -/
def Obligations.ParametricStepKeepsTheWidths : Prop :=
  (∀ (c : Config.Params) (l : IntLaunchItems) (s : IntState),
    parametricLaunch c l = some s → FitsAt c s) ∧
  (∀ (c : Config.Params) (s : IntState), FitsAt c s → FitsAt c (parametricStep c s))
end

