-- ==== Sys2Proof/Laws/Decode.lean ====
section
/-!
SUPPORT. The fields of an instruction word: what each field of a packed word is, and each field as a
number; and what the decoder can answer, said once.
-/

namespace Sys2Proof

/-! ### Packing and unpacking -/

/-- Where the second value field begins, as a product. -/
theorem two_pow_ten_add (n : Nat) : 2 ^ (10 + n) = 1024 * 2 ^ n := by rw [pow_add]; rfl

/-- How many instruction words there are, as a product. -/
theorem two_pow_ilen : 2 ^ Config.ilen = 2 ^ (10 + Config.immW) * 2 ^ Config.immW := by
  rw [← pow_add, Nat.add_assoc, ← Nat.two_mul]

/-- The canonical word as a number (spec/30_encoding.md R91). -/
theorem packFields_toNat (op : BitVec 4) (cnt m1 m2 : BitVec 2) (v1 v2 : ValueField) :
    (packFields op cnt m1 m2 v1 v2).toNat =
      op.toNat + 16 * cnt.toNat + 64 * m1.toNat + 256 * m2.toNat + 1024 * v1.toNat +
        2 ^ (10 + Config.immW) * v2.toNat := by
  have h0 := op.isLt
  have h1 := cnt.isLt
  have h2 := m1.isLt
  have h3 := m2.isLt
  have h4 := v1.isLt
  have hp := two_pow_ten_add Config.immW
  have e1 := Nat.shiftLeft_add_eq_or_of_lt (b := op.toNat) h0 cnt.toNat
  simp only [packFields, BitVec.toNat_append]
  rw [← e1]
  rw [← Nat.shiftLeft_add_eq_or_of_lt (i := 6) (by simp only [Nat.shiftLeft_eq]; omega)]
  rw [← Nat.shiftLeft_add_eq_or_of_lt (i := 8) (by simp only [Nat.shiftLeft_eq]; omega)]
  rw [← Nat.shiftLeft_add_eq_or_of_lt (i := 10) (by simp only [Nat.shiftLeft_eq]; omega)]
  rw [show Config.immW + (2 + (2 + (2 + 4))) = 10 + Config.immW from Nat.add_comm _ _]
  rw [← Nat.shiftLeft_add_eq_or_of_lt (i := 10 + Config.immW)
    (by simp only [Nat.shiftLeft_eq]; omega)]
  simp only [Nat.shiftLeft_eq]
  rw [Nat.mul_comm v2.toNat]
  omega

theorem opField_toNat (iw : IWord) : (opField iw).toNat = iw.toNat % 16 := by
  simp [opField, BitVec.extractLsb'_toNat]

theorem cntField_toNat (iw : IWord) : (cntField iw).toNat = iw.toNat / 16 % 4 := by
  simp [cntField, BitVec.extractLsb'_toNat, Nat.shiftRight_eq_div_pow]

theorem m1Field_toNat (iw : IWord) : (m1Field iw).toNat = iw.toNat / 64 % 4 := by
  simp [m1Field, BitVec.extractLsb'_toNat, Nat.shiftRight_eq_div_pow]

theorem m2Field_toNat (iw : IWord) : (m2Field iw).toNat = iw.toNat / 256 % 4 := by
  simp [m2Field, BitVec.extractLsb'_toNat, Nat.shiftRight_eq_div_pow]

theorem v1Field_toNat (iw : IWord) : (v1Field iw).toNat = iw.toNat / 1024 % 2 ^ Config.immW := by
  rw [v1Field, BitVec.extractLsb'_toNat, Nat.shiftRight_eq_div_pow]

theorem v2Field_toNat (iw : IWord) : (v2Field iw).toNat = iw.toNat / 2 ^ (10 + Config.immW) := by
  have hw : iw.toNat < 2 ^ (10 + Config.immW) * 2 ^ Config.immW := two_pow_ilen ▸ iw.isLt
  rw [v2Field, BitVec.extractLsb'_toNat, Nat.shiftRight_eq_div_pow]
  exact Nat.mod_eq_of_lt (Nat.div_lt_of_lt_mul hw)

section
variable (op : BitVec 4) (cnt m1 m2 : BitVec 2) (v1 v2 : ValueField)

@[simp] theorem opField_packFields : opField (packFields op cnt m1 m2 v1 v2) = op := by
  apply BitVec.eq_of_toNat_eq
  rw [opField_toNat, packFields_toNat, two_pow_ten_add, Nat.mul_assoc]
  omega

@[simp] theorem cntField_packFields : cntField (packFields op cnt m1 m2 v1 v2) = cnt := by
  apply BitVec.eq_of_toNat_eq
  rw [cntField_toNat, packFields_toNat, two_pow_ten_add, Nat.mul_assoc]
  omega

@[simp] theorem m1Field_packFields : m1Field (packFields op cnt m1 m2 v1 v2) = m1 := by
  apply BitVec.eq_of_toNat_eq
  rw [m1Field_toNat, packFields_toNat, two_pow_ten_add, Nat.mul_assoc]
  omega

@[simp] theorem m2Field_packFields : m2Field (packFields op cnt m1 m2 v1 v2) = m2 := by
  apply BitVec.eq_of_toNat_eq
  rw [m2Field_toNat, packFields_toNat, two_pow_ten_add, Nat.mul_assoc]
  omega

@[simp] theorem v1Field_packFields : v1Field (packFields op cnt m1 m2 v1 v2) = v1 := by
  apply BitVec.eq_of_toNat_eq
  have hp := two_pow_ten_add Config.immW
  have h1 := v1.isLt
  rw [v1Field_toNat, packFields_toNat, hp, Nat.mul_assoc]
  have e : (op.toNat + 16 * cnt.toNat + 64 * m1.toNat + 256 * m2.toNat + 1024 * v1.toNat +
      1024 * (2 ^ Config.immW * v2.toNat)) / 1024 = v1.toNat + 2 ^ Config.immW * v2.toNat := by omega
  rw [e, Nat.add_mul_mod_self_left, Nat.mod_eq_of_lt h1]

@[simp] theorem v2Field_packFields : v2Field (packFields op cnt m1 m2 v1 v2) = v2 := by
  apply BitVec.eq_of_toNat_eq
  have hp := two_pow_ten_add Config.immW
  have h1 := v1.isLt
  rw [v2Field_toNat, packFields_toNat, Nat.add_mul_div_left _ _ (Nat.two_pow_pos _),
    Nat.div_eq_of_lt (by omega), Nat.zero_add]
end

/-- A word is the packing of its fields (spec/30_encoding.md R73: there are no other bits). -/
theorem packFields_fields (iw : IWord) :
    packFields (opField iw) (cntField iw) (m1Field iw) (m2Field iw) (v1Field iw) (v2Field iw) = iw := by
  apply BitVec.eq_of_toNat_eq
  rw [packFields_toNat, opField_toNat, cntField_toNat, m1Field_toNat, m2Field_toNat, v1Field_toNat,
    v2Field_toNat, two_pow_ten_add, ← Nat.div_div_eq_div_mul, Nat.mul_assoc]
  have := Nat.mod_add_div (iw.toNat / 1024) (2 ^ Config.immW)
  omega

/-! ### Operands -/

/-- Everything `decodeOperand` can answer. -/
theorem decodeOperand_cases (m : BitVec 2) (v : ValueField) :
    (m.toNat = 0 ∧ decodeOperand m v = some (.imm (v.setWidth Config.xlen))) ∨
    (m.toNat = 1 ∧ decodeOperand m v = some (.reg (v.setWidth Config.xlen))) ∨
    (m.toNat = 2 ∧ decodeOperand m v = some (.ptr (v.setWidth Config.xlen))) ∨
    (m.toNat = 3 ∧ decodeOperand m v = none) := by
  have := m.isLt
  have h : m.toNat = 0 ∨ m.toNat = 1 ∨ m.toNat = 2 ∨ m.toNat = 3 := by omega
  rcases h with h | h | h | h <;> simp [decodeOperand, h]

/-- A value field fits a register (spec/00_scope.md R5: `IMM_W <= XLEN - 1`). -/
theorem two_pow_immW_le : 2 ^ Config.immW ≤ 2 ^ (Config.xlen - 1) :=
  Nat.pow_le_pow_right (by decide) Config.params.immW_le

/-- Zero-extension keeps the number of a value field (spec/30_encoding.md R77). -/
theorem zext_toNat (v : ValueField) : (v.setWidth Config.xlen).toNat = v.toNat := by
  rw [BitVec.toNat_setWidth]
  refine Nat.mod_eq_of_lt (v.isLt.trans_le (two_pow_immW_le.trans ?_))
  exact Nat.pow_le_pow_right (by decide) (Nat.sub_le _ _)

/-- An operand's number fits its field exactly when the operand has an encoding. -/
theorem Operand.wf_iff {o : Operand} : o.wf = true ↔ o.value.toNat < 2 ^ Config.immW := by
  simp only [Operand.wf, decide_eq_true_eq]

/-- A decoded operand has an encoding. -/
theorem decodeOperand_wf {m : BitVec 2} {v : ValueField} {o : Operand}
    (h : decodeOperand m v = some o) : o.wf = true := by
  have hv : (v.setWidth Config.xlen).toNat < 2 ^ Config.immW := zext_toNat v ▸ v.isLt
  rw [Operand.wf_iff]
  rcases decodeOperand_cases m v with ⟨-, e⟩ | ⟨-, e⟩ | ⟨-, e⟩ | ⟨-, e⟩ <;> rw [e] at h <;> cases h <;>
    exact hv

/-- The mode number and the value field of an operand with an encoding decode to it. -/
theorem decodeOperand_encoded {o : Operand} (h : o.wf = true) :
    decodeOperand (modeNumber o) (o.value.setWidth Config.immW) = some o := by
  have e : (o.value.setWidth Config.immW).setWidth Config.xlen = o.value := by
    apply BitVec.eq_of_toNat_eq
    rw [zext_toNat, BitVec.toNat_setWidth]
    exact Nat.mod_eq_of_lt (Operand.wf_iff.mp h)
  cases o <;> simp_all [decodeOperand, modeNumber, Operand.value]

/-! ### The decoder -/

/-- Everything `decodeOne` can answer. -/
theorem decodeOne_eq_ok {iw : IWord} {mk : Operand → Instr} {i : Instr} :
    decodeOne iw mk = .ok i ↔ ∃ o, decodeOperand (m1Field iw) (v1Field iw) = some o ∧ i = mk o := by
  unfold decodeOne
  cases decodeOperand (m1Field iw) (v1Field iw) <;> simp [eq_comm]

/-- Everything `decodeTwo` can answer. -/
theorem decodeTwo_eq_ok {iw : IWord} {mk : Operand → Operand → Instr} {i : Instr} :
    decodeTwo iw mk = .ok i ↔
      ∃ o1 o2, decodeOperand (m1Field iw) (v1Field iw) = some o1 ∧
        decodeOperand (m2Field iw) (v2Field iw) = some o2 ∧ i = mk o1 o2 := by
  unfold decodeTwo
  cases decodeOperand (m1Field iw) (v1Field iw) <;>
    cases decodeOperand (m2Field iw) (v2Field iw) <;> simp [eq_comm]

/-- When `decode` answers an instruction: opcode and operand count agree, and the form decodes. -/
theorem decode_eq_ok {iw : IWord} {i : Instr} :
    decode iw = .ok i ↔
      ∃ op, opcodeOfNumber (opField iw).toNat = some op ∧ (cntField iw).toNat = arity op ∧
        decodeForm op iw = .ok i := by
  unfold decode
  cases h : opcodeOfNumber (opField iw).toNat with
  | none => simp
  | some op => by_cases hc : (cntField iw).toNat = arity op <;> simp [hc]

/-- An instruction the decoder answers has the opcode it was decoded under. -/
theorem decodeForm_opcode {op : Opcode} {iw : IWord} {i : Instr} (h : decodeForm op iw = .ok i) :
    opcodeOf i = op := by
  cases op <;> simp only [decodeForm, decodeOne_eq_ok, decodeTwo_eq_ok, Except.ok.injEq] at h <;>
    first
    | (obtain rfl := h; rfl)
    | (obtain ⟨o, -, rfl⟩ := h; rfl)
    | (obtain ⟨o1, o2, -, -, rfl⟩ := h; rfl)

/-- A decoded instruction has an encoding (spec/30_encoding.md R77). -/
theorem decode_wf {iw : IWord} {i : Instr} (h : decode iw = .ok i) : i.wf = true := by
  obtain ⟨op, -, -, h⟩ := decode_eq_ok.mp h
  cases op <;> simp only [decodeForm, decodeOne_eq_ok, decodeTwo_eq_ok, Except.ok.injEq] at h <;>
    first
    | (obtain rfl := h; rfl)
    | (obtain ⟨o, ho, rfl⟩ := h; simp [Instr.wf, Instr.operands, decodeOperand_wf ho])
    | (obtain ⟨o1, o2, h1, h2, rfl⟩ := h
       simp [Instr.wf, Instr.operands, decodeOperand_wf h1, decodeOperand_wf h2])

/-- The number of an opcode names it. -/
@[simp] theorem opcodeOfNumber_opcodeNumber (op : Opcode) :
    opcodeOfNumber (opcodeNumber op).toNat = some op := by
  cases op <;> rfl

/-- The opcode a number names has that number. -/
theorem opcodeNumber_of_opcodeOfNumber {n : BitVec 4} {op : Opcode}
    (h : opcodeOfNumber n.toNat = some op) : opcodeNumber op = n := by
  revert h
  revert n
  cases op <;> decide

end Sys2Proof
end

