-- ==== Sys2Proof/Laws/State.lean ====
section
/-!
SUPPORT. The named updates of the state, one lemma per field per update, so that no proof unfolds a
record update.
-/

namespace Sys2Proof.Machine

@[simp] theorem rawWrite_regs (s : State) (i v : Word) : (rawWrite s i v).regs = s.regs.set i.toNat v := rfl
@[simp] theorem rawWrite_pc (s : State) (i v : Word) : (rawWrite s i v).pc = s.pc := rfl
@[simp] theorem rawWrite_flag (s : State) (i v : Word) : (rawWrite s i v).flag = s.flag := rfl
@[simp] theorem rawWrite_steps (s : State) (i v : Word) : (rawWrite s i v).steps = s.steps := rfl
@[simp] theorem rawWrite_status (s : State) (i v : Word) : (rawWrite s i v).status = s.status := rfl
@[simp] theorem rawWrite_errKind (s : State) (i v : Word) : (rawWrite s i v).errKind = s.errKind := rfl
@[simp] theorem rawWrite_errInfo (s : State) (i v : Word) : (rawWrite s i v).errInfo = s.errInfo := rfl
@[simp] theorem rawWrite_imem (s : State) (i v : Word) : (rawWrite s i v).imem = s.imem := rfl
@[simp] theorem rawWrite_budget (s : State) (i v : Word) : (rawWrite s i v).budget = s.budget := rfl

@[simp] theorem State.advance_regs (s : State) : s.advance.regs = s.regs := rfl
@[simp] theorem State.advance_pc (s : State) : s.advance.pc = s.pc + 1 := rfl
@[simp] theorem State.advance_flag (s : State) : s.advance.flag = s.flag := rfl
@[simp] theorem State.advance_steps (s : State) : s.advance.steps = s.steps := rfl
@[simp] theorem State.advance_status (s : State) : s.advance.status = s.status := rfl
@[simp] theorem State.advance_errKind (s : State) : s.advance.errKind = s.errKind := rfl
@[simp] theorem State.advance_errInfo (s : State) : s.advance.errInfo = s.errInfo := rfl
@[simp] theorem State.advance_imem (s : State) : s.advance.imem = s.imem := rfl
@[simp] theorem State.advance_budget (s : State) : s.advance.budget = s.budget := rfl

@[simp] theorem State.jumpTo_regs (s : State) (t : Word) : (s.jumpTo t).regs = s.regs := rfl
@[simp] theorem State.jumpTo_pc (s : State) (t : Word) : (s.jumpTo t).pc = t := rfl
@[simp] theorem State.jumpTo_flag (s : State) (t : Word) : (s.jumpTo t).flag = s.flag := rfl
@[simp] theorem State.jumpTo_steps (s : State) (t : Word) : (s.jumpTo t).steps = s.steps := rfl
@[simp] theorem State.jumpTo_status (s : State) (t : Word) : (s.jumpTo t).status = s.status := rfl
@[simp] theorem State.jumpTo_errKind (s : State) (t : Word) : (s.jumpTo t).errKind = s.errKind := rfl
@[simp] theorem State.jumpTo_errInfo (s : State) (t : Word) : (s.jumpTo t).errInfo = s.errInfo := rfl
@[simp] theorem State.jumpTo_imem (s : State) (t : Word) : (s.jumpTo t).imem = s.imem := rfl
@[simp] theorem State.jumpTo_budget (s : State) (t : Word) : (s.jumpTo t).budget = s.budget := rfl

@[simp] theorem State.setFlag_regs (s : State) (f : ComparisonFlag) : (s.setFlag f).regs = s.regs := rfl
@[simp] theorem State.setFlag_pc (s : State) (f : ComparisonFlag) : (s.setFlag f).pc = s.pc := rfl
@[simp] theorem State.setFlag_flag (s : State) (f : ComparisonFlag) : (s.setFlag f).flag = f := rfl
@[simp] theorem State.setFlag_steps (s : State) (f : ComparisonFlag) : (s.setFlag f).steps = s.steps := rfl
@[simp] theorem State.setFlag_status (s : State) (f : ComparisonFlag) : (s.setFlag f).status = s.status := rfl
@[simp] theorem State.setFlag_errKind (s : State) (f : ComparisonFlag) : (s.setFlag f).errKind = s.errKind := rfl
@[simp] theorem State.setFlag_errInfo (s : State) (f : ComparisonFlag) : (s.setFlag f).errInfo = s.errInfo := rfl
@[simp] theorem State.setFlag_imem (s : State) (f : ComparisonFlag) : (s.setFlag f).imem = s.imem := rfl
@[simp] theorem State.setFlag_budget (s : State) (f : ComparisonFlag) : (s.setFlag f).budget = s.budget := rfl

@[simp] theorem State.halt_regs (s : State) : s.halt.regs = s.regs := rfl
@[simp] theorem State.halt_pc (s : State) : s.halt.pc = s.pc := rfl
@[simp] theorem State.halt_flag (s : State) : s.halt.flag = s.flag := rfl
@[simp] theorem State.halt_steps (s : State) : s.halt.steps = s.steps := rfl
@[simp] theorem State.halt_status (s : State) : s.halt.status = .halted := rfl
@[simp] theorem State.halt_errKind (s : State) : s.halt.errKind = s.errKind := rfl
@[simp] theorem State.halt_errInfo (s : State) : s.halt.errInfo = s.errInfo := rfl
@[simp] theorem State.halt_imem (s : State) : s.halt.imem = s.imem := rfl
@[simp] theorem State.halt_budget (s : State) : s.halt.budget = s.budget := rfl

@[simp] theorem State.countStep_regs (s : State) : s.countStep.regs = s.regs := rfl
@[simp] theorem State.countStep_pc (s : State) : s.countStep.pc = s.pc := rfl
@[simp] theorem State.countStep_flag (s : State) : s.countStep.flag = s.flag := rfl
@[simp] theorem State.countStep_steps (s : State) : s.countStep.steps = s.steps + 1 := rfl
@[simp] theorem State.countStep_status (s : State) : s.countStep.status = s.status := rfl
@[simp] theorem State.countStep_errKind (s : State) : s.countStep.errKind = s.errKind := rfl
@[simp] theorem State.countStep_errInfo (s : State) : s.countStep.errInfo = s.errInfo := rfl
@[simp] theorem State.countStep_imem (s : State) : s.countStep.imem = s.imem := rfl
@[simp] theorem State.countStep_budget (s : State) : s.countStep.budget = s.budget := rfl

@[simp] theorem faultEntry_regs (r : Raise) (s : State) : (faultEntry r s).regs = s.regs := rfl
@[simp] theorem faultEntry_pc (r : Raise) (s : State) : (faultEntry r s).pc = s.pc := rfl
@[simp] theorem faultEntry_flag (r : Raise) (s : State) : (faultEntry r s).flag = s.flag := rfl
@[simp] theorem faultEntry_steps (r : Raise) (s : State) : (faultEntry r s).steps = s.steps := rfl
@[simp] theorem faultEntry_status (r : Raise) (s : State) : (faultEntry r s).status = .faulted := rfl
@[simp] theorem faultEntry_errKind (r : Raise) (s : State) : (faultEntry r s).errKind = some r.kind := rfl
@[simp] theorem faultEntry_errInfo (r : Raise) (s : State) : (faultEntry r s).errInfo = r.info := rfl
@[simp] theorem faultEntry_imem (r : Raise) (s : State) : (faultEntry r s).imem = s.imem := rfl
@[simp] theorem faultEntry_budget (r : Raise) (s : State) : (faultEntry r s).budget = s.budget := rfl

end Sys2Proof.Machine
end

