-- ==== Sys2Proof/Laws/Operands.lean ====
section
/-!
SUPPORT. What the register file and the operand resolver can do, said once: each operation answers
`ok` exactly in the terms of Sys2Proof/Safety.lean, and fails exactly on an index outside `[0, N)` or on
an immediate destination.
-/

namespace Sys2Proof.Machine

/-! ### Registers -/

theorem inRange_eq_true {s : State} {i : Word} :
    inRange s i = true ↔ 0 ≤ i.toInt ∧ i.toInt < (s.regs.length : Int) := by
  simp [inRange]

theorem inRange_eq_false {s : State} {i : Word} : inRange s i = false ↔ OutOfBounds s i := by
  rw [← Bool.not_eq_true, inRange_eq_true, OutOfBounds]
  omega

/-- A non-negative word's index is its signed value. -/
theorem toInt_toNat_of_nonneg {i : Word} (h : 0 ≤ i.toInt) : (i.toNat : Int) = i.toInt := by
  rw [BitVec.toInt_eq_toNat_cond] at h ⊢
  split at h <;> omega

theorem inRange_of_holds {s : State} {i v : Word} (h : Holds s i v) : inRange s i = true := by
  obtain ⟨h0, hv⟩ := h
  obtain ⟨hlt, -⟩ := List.getElem?_eq_some_iff.mp hv
  have := toInt_toNat_of_nonneg h0
  exact inRange_eq_true.mpr ⟨h0, by omega⟩

theorem holds_of_inRange {s : State} {i : Word} (h : inRange s i = true) :
    Holds s i (rawRead s i) := by
  obtain ⟨h0, hN⟩ := inRange_eq_true.mp h
  have hi := toInt_toNat_of_nonneg h0
  have hlt : i.toNat < s.regs.length := by omega
  exact ⟨h0, by simp [rawRead, List.getD_eq_getElem?_getD, hlt]⟩

theorem rawRead_of_holds {s : State} {i v : Word} (h : Holds s i v) : rawRead s i = v := by
  simp [rawRead, List.getD_eq_getElem?_getD, h.2]

theorem holds_unique {s : State} {i v w : Word} (h : Holds s i v) (h' : Holds s i w) : v = w :=
  (rawRead_of_holds h).symm.trans (rawRead_of_holds h')

theorem holds_or_outOfBounds (s : State) (i : Word) : (∃ v, Holds s i v) ∨ OutOfBounds s i := by
  cases h : inRange s i
  · exact .inr (inRange_eq_false.mp h)
  · exact .inl ⟨_, holds_of_inRange h⟩

theorem not_outOfBounds_of_holds {s : State} {i v : Word} (h : Holds s i v) : ¬ OutOfBounds s i := by
  rw [← inRange_eq_false, inRange_of_holds h]
  simp

/-- Everything `regRead` can answer. -/
theorem regRead_eq_ok {s : State} {i v : Word} : regRead s i = .ok v ↔ Holds s i v := by
  unfold regRead
  cases h : inRange s i
  · simpa using fun hv => not_outOfBounds_of_holds hv (inRange_eq_false.mp h)
  · have hr := holds_of_inRange h
    simp only [if_true, Except.ok.injEq]
    exact ⟨fun e => e ▸ hr, fun hv => holds_unique hr hv⟩

theorem regRead_eq_error {s : State} {i : Word} {r : Raise} :
    regRead s i = .error r ↔ OutOfBounds s i ∧ r = ⟨.registerOutOfRange, i⟩ := by
  unfold regRead
  cases h : inRange s i
  · simp [inRange_eq_false.mp h, eq_comm]
  · have := not_outOfBounds_of_holds (holds_of_inRange h)
    simp [this]

/-- Everything `regWrite` can answer. -/
theorem regWrite_eq_ok {s t : State} {i v : Word} :
    regWrite s i v = .ok t ↔ (∃ w, Holds s i w) ∧ t = { s with regs := s.regs.set i.toNat v } := by
  unfold regWrite
  cases h : inRange s i
  · simpa using fun w hw => absurd (inRange_eq_false.mp h) (not_outOfBounds_of_holds hw)
  · have : ∃ w, Holds s i w := ⟨_, holds_of_inRange h⟩
    simp [this, rawWrite, eq_comm]

theorem regWrite_eq_error {s : State} {i v : Word} {r : Raise} :
    regWrite s i v = .error r ↔ OutOfBounds s i ∧ r = ⟨.registerOutOfRange, i⟩ := by
  unfold regWrite
  cases h : inRange s i
  · simp [inRange_eq_false.mp h, eq_comm]
  · have := not_outOfBounds_of_holds (holds_of_inRange h)
    simp [this]

/-- What a register holds after a write to one that exists. -/
theorem holds_set_self {s : State} {i w : Word} (v : Word) (h : Holds s i w) :
    Holds { s with regs := s.regs.set i.toNat v } i v := by
  obtain ⟨hlt, -⟩ := List.getElem?_eq_some_iff.mp h.2
  exact ⟨h.1, by simp [hlt]⟩

/-- What every other register holds after a write. -/
theorem holds_set_other {s : State} {i j w : Word} (hj : j ≠ i) (u : Word) :
    Holds { s with regs := s.regs.set i.toNat w } j u ↔ Holds s j u := by
  have : i.toNat ≠ j.toNat := fun e => hj (BitVec.eq_of_toNat_eq e.symm)
  simp [Holds, List.getElem?_set_ne this]

/-! ### Operands -/

theorem names_holds {s : State} {o : Operand} {a : Word} (h : Names s o a) : ∃ v, Holds s a v := by
  cases o with
  | imm n => exact h.elim
  | reg idx => exact h.2
  | ptr idx => exact h.2

/-- What an operand names holds the value it reads. -/
theorem reads_of_names {s : State} {o : Operand} {a v : Word} (hn : Names s o a) (hv : Holds s a v) :
    Reads s o v := by
  cases o with
  | imm n => exact hn.elim
  | reg idx => obtain ⟨rfl, -⟩ := hn; exact hv
  | ptr idx => exact ⟨a, hn.1, hv⟩

/-- Everything `resolveRead` can answer. -/
theorem resolveRead_eq_ok {s : State} {o : Operand} {v : Word} :
    resolveRead s o = .ok v ↔ Reads s o v := by
  cases o with
  | imm n => simp [resolveRead, Reads, eq_comm]
  | reg idx => exact regRead_eq_ok
  | ptr idx =>
    simp only [resolveRead, Reads]
    cases h : regRead s idx with
    | error r =>
      have := (regRead_eq_error.mp h).1
      simp only [bind, Except.bind, reduceCtorEq, false_iff]
      rintro ⟨a, ha, -⟩
      exact not_outOfBounds_of_holds ha this
    | ok a =>
      have ha := regRead_eq_ok.mp h
      simp only [bind, Except.bind, regRead_eq_ok]
      exact ⟨fun hv => ⟨a, ha, hv⟩, fun ⟨b, hb, hv⟩ => holds_unique ha hb ▸ hv⟩

theorem resolveRead_eq_error {s : State} {o : Operand} {r : Raise} :
    resolveRead s o = .error r ↔ ∃ k, Unresolvable s o k ∧ r = ⟨.registerOutOfRange, k⟩ := by
  cases o with
  | imm n => simp [resolveRead, Unresolvable]
  | reg idx =>
    simp only [resolveRead, regRead_eq_error, Unresolvable]
    exact ⟨fun ⟨h, e⟩ => ⟨idx, ⟨rfl, h⟩, e⟩, fun ⟨k, ⟨hk, h⟩, e⟩ => ⟨h, hk ▸ e⟩⟩
  | ptr idx =>
    simp only [resolveRead, Unresolvable]
    cases h : regRead s idx with
    | error q =>
      obtain ⟨ho, rfl⟩ := regRead_eq_error.mp h
      simp only [bind, Except.bind, Except.error.injEq]
      constructor
      · rintro rfl; exact ⟨idx, .inl ⟨rfl, ho⟩, rfl⟩
      · rintro ⟨k, ⟨rfl, -⟩ | ⟨hk, -⟩, rfl⟩
        · rfl
        · exact absurd ho (not_outOfBounds_of_holds hk)
    | ok a =>
      have ha := regRead_eq_ok.mp h
      simp only [bind, Except.bind, regRead_eq_error]
      constructor
      · rintro ⟨ho, e⟩; exact ⟨a, .inr ⟨ha, ho⟩, e⟩
      · rintro ⟨k, ⟨rfl, ho⟩ | ⟨hk, ho⟩, e⟩
        · exact absurd ho (not_outOfBounds_of_holds ha)
        · obtain rfl := holds_unique ha hk; exact ⟨ho, e⟩

/-- Everything `resolveWrite` can answer. -/
theorem resolveWrite_eq_ok {s t : State} {o : Operand} {v : Word} :
    resolveWrite s v o = .ok t ↔
      ∃ a, Names s o a ∧ t = { s with regs := s.regs.set a.toNat v } := by
  cases o with
  | imm n => simp [resolveWrite, Names]
  | reg idx =>
    simp only [resolveWrite, regWrite_eq_ok, Names]
    exact ⟨fun ⟨h, e⟩ => ⟨idx, ⟨rfl, h⟩, e⟩, fun ⟨a, ⟨ha, h⟩, e⟩ => by subst ha; exact ⟨h, e⟩⟩
  | ptr idx =>
    simp only [resolveWrite, Names]
    cases h : regRead s idx with
    | error r =>
      have := (regRead_eq_error.mp h).1
      simp only [bind, Except.bind, reduceCtorEq, false_iff]
      rintro ⟨a, ⟨ha, -⟩, -⟩
      exact not_outOfBounds_of_holds ha this
    | ok b =>
      have hb := regRead_eq_ok.mp h
      simp only [bind, Except.bind, regWrite_eq_ok]
      constructor
      · rintro ⟨hw, e⟩; exact ⟨b, ⟨hb, hw⟩, e⟩
      · rintro ⟨a, ⟨ha, hw⟩, e⟩
        obtain rfl := holds_unique hb ha
        exact ⟨hw, e⟩

theorem resolveWrite_eq_error {s : State} {o : Operand} {v : Word} {r : Raise} :
    resolveWrite s v o = .error r ↔
      (∃ n, o = .imm n ∧ r = ⟨.invalidWriteTarget, n⟩) ∨
        ∃ k, Unresolvable s o k ∧ r = ⟨.registerOutOfRange, k⟩ := by
  cases o with
  | imm n => simp [resolveWrite, Unresolvable, eq_comm]
  | reg idx =>
    simp only [resolveWrite, regWrite_eq_error, Unresolvable, reduceCtorEq, false_and, exists_false,
      false_or]
    exact ⟨fun ⟨h, e⟩ => ⟨idx, ⟨rfl, h⟩, e⟩, fun ⟨k, ⟨hk, h⟩, e⟩ => ⟨h, hk ▸ e⟩⟩
  | ptr idx =>
    simp only [resolveWrite, Unresolvable, reduceCtorEq, false_and, exists_false, false_or]
    cases h : regRead s idx with
    | error q =>
      obtain ⟨ho, rfl⟩ := regRead_eq_error.mp h
      simp only [bind, Except.bind, Except.error.injEq]
      constructor
      · rintro rfl; exact ⟨idx, .inl ⟨rfl, ho⟩, rfl⟩
      · rintro ⟨k, ⟨rfl, -⟩ | ⟨hk, -⟩, rfl⟩
        · rfl
        · exact absurd ho (not_outOfBounds_of_holds hk)
    | ok a =>
      have ha := regRead_eq_ok.mp h
      simp only [bind, Except.bind, regWrite_eq_error]
      constructor
      · rintro ⟨ho, e⟩; exact ⟨a, .inr ⟨ha, ho⟩, e⟩
      · rintro ⟨k, ⟨rfl, ho⟩ | ⟨hk, ho⟩, e⟩
        · exact absurd ho (not_outOfBounds_of_holds ha)
        · obtain rfl := holds_unique ha hk; exact ⟨ho, e⟩

/-! ### The step counter -/

/-- Below the budget the step counter does not wrap (spec/10_state.md R31). -/
theorem steps_succ_toNat {s : State} (h : s.steps.toNat < s.budget.toNat) :
    (s.steps + 1).toNat = s.steps.toNat + 1 := by
  have := s.budget.isLt
  rw [BitVec.toNat_add, show (1 : StepCount).toNat = 1 from rfl, Nat.mod_eq_of_lt (by omega)]

/-! ### Memory -/

theorem memory_wf_iff {s : State} :
    Memory.wf s = true ↔ s.regs.length ≤ Config.maxLength ∧ s.imem.length ≤ Config.maxLength := by
  simp [Memory.wf, State.registerCount, State.instructionCount]

theorem memory_wf_reset : Memory.wf State.reset = true := by decide

theorem regWrite_keeps_memory_wf {s t : State} {i v : Word} (h : regWrite s i v = .ok t) :
    Memory.wf t = Memory.wf s := by
  obtain ⟨-, rfl⟩ := regWrite_eq_ok.mp h
  simp [Memory.wf, State.registerCount, State.instructionCount]

theorem resolveWrite_keeps_memory_wf {s t : State} {o : Operand} {v : Word}
    (h : resolveWrite s v o = .ok t) : Memory.wf t = Memory.wf s := by
  obtain ⟨a, -, rfl⟩ := resolveWrite_eq_ok.mp h
  simp [Memory.wf, State.registerCount, State.instructionCount]

end Sys2Proof.Machine
end

