-- ==== Sys2Proof/Laws/Exec.lean ====
section
/-!
SUPPORT. What an instruction can do, said once: `exec` always answers a next state, and that state is the
completed effect of the instruction, a register fault on one of its operands, or a write fault on an
immediate destination (`exec_inv`).
-/

namespace Sys2Proof.Machine

@[simp] theorem settle_ok (s t : State) : settle s (.ok t) = .next t := rfl
@[simp] theorem settle_error (s : State) (r : Raise) : settle s (.error r) = .next (faultEntry r s) := rfl

/-- `settle` always answers a next state. -/
theorem settle_eq_next {s t : State} {r : Except Raise State} :
    settle s r = .next t ↔ r = .ok t ∨ ∃ e, r = .error e ∧ t = faultEntry e s := by
  cases r <;> simp [eq_comm]

/-- The fault of an index outside `[0, N)`. -/
abbrev rangeFault (k : Word) : Raise := ⟨.registerOutOfRange, k⟩

/-- The fault of an immediate destination. -/
abbrev targetFault (n : Word) : Raise := ⟨.invalidWriteTarget, n⟩

/-! ### The operands and the meanings, evaluated -/

theorem resolveRead_of_reads {s : State} {o : Operand} {v : Word} (h : Reads s o v) :
    resolveRead s o = .ok v := resolveRead_eq_ok.mpr h

theorem resolveRead_of_unresolvable {s : State} {o : Operand} {k : Word} (h : Unresolvable s o k) :
    resolveRead s o = .error (rangeFault k) := resolveRead_eq_error.mpr ⟨k, h, rfl⟩

theorem resolveWrite_of_names {s : State} {o : Operand} {a : Word} (v : Word) (h : Names s o a) :
    resolveWrite s v o = .ok { s with regs := s.regs.set a.toNat v } := resolveWrite_eq_ok.mpr ⟨a, h, rfl⟩

theorem resolveWrite_of_unresolvable {s : State} {o : Operand} {k : Word} (v : Word)
    (h : Unresolvable s o k) : resolveWrite s v o = .error (rangeFault k) :=
  resolveWrite_eq_error.mpr (.inr ⟨k, h, rfl⟩)

/-- An operand is read, or its resolution fails, never both. -/
theorem reads_or_unresolvable (s : State) (o : Operand) :
    (∃ v, Reads s o v) ∨ ∃ k, Unresolvable s o k := by
  cases h : resolveRead s o with
  | ok v => exact .inl ⟨v, resolveRead_eq_ok.mp h⟩
  | error r =>
    obtain ⟨k, hk, -⟩ := resolveRead_eq_error.mp h
    exact .inr ⟨k, hk⟩

/-- A destination that can be read and is no immediate names a register. -/
theorem names_of_reads {s : State} {o : Operand} {v : Word} (h : Reads s o v) :
    (∃ n, o = .imm n) ∨ ∃ a, Names s o a ∧ Holds s a v := by
  cases o with
  | imm n => exact .inl ⟨n, rfl⟩
  | reg idx => exact .inr ⟨idx, ⟨rfl, v, h⟩, h⟩
  | ptr idx => obtain ⟨a, ha, hv⟩ := h; exact .inr ⟨a, ⟨ha, v, hv⟩, hv⟩

/-- Everything MOV can do (spec/41_alu_data.md R121). -/
theorem execMov_inv {dst src : Operand} {s t : State} (h : execMov dst src s = .next t) :
    (∃ k, (Unresolvable s src k ∨ Unresolvable s dst k) ∧ t = faultEntry (rangeFault k) s) ∨
    (∃ n, dst = .imm n ∧ t = faultEntry (targetFault n) s) ∨
    (∃ a v, Names s dst a ∧ Reads s src v ∧
      t = { s with regs := s.regs.set a.toNat v, pc := s.pc + 1 }) := by
  unfold execMov at h
  cases hr : resolveRead s src with
  | error r =>
    obtain ⟨k, hk, rfl⟩ := resolveRead_eq_error.mp hr
    simp only [hr, bind, Except.bind, settle_error, Host.Outcome.next.injEq] at h
    exact .inl ⟨k, .inl hk, h.symm⟩
  | ok v =>
    cases hw : resolveWrite s v dst with
    | error r =>
      simp only [hr, hw, bind, Except.bind, settle_error, Host.Outcome.next.injEq] at h
      rcases resolveWrite_eq_error.mp hw with ⟨n, hn, rfl⟩ | ⟨k, hk, rfl⟩
      · exact .inr (.inl ⟨n, hn, h.symm⟩)
      · exact .inl ⟨k, .inr hk, h.symm⟩
    | ok u =>
      obtain ⟨a, ha, rfl⟩ := resolveWrite_eq_ok.mp hw
      simp only [hr, hw, bind, Except.bind, settle_ok, Host.Outcome.next.injEq] at h
      exact .inr (.inr ⟨a, v, ha, resolveRead_eq_ok.mp hr, h.symm⟩)

/-- Everything ADD and MUL can do (spec/41_alu_data.md R122, R123). -/
theorem readModifyWrite_inv {f : Word → Word → Word} {dst src : Operand} {s t : State}
    (h : settle s (readModifyWrite f dst src s) = .next t) :
    (∃ k, (Unresolvable s dst k ∨ Unresolvable s src k) ∧ t = faultEntry (rangeFault k) s) ∨
    (∃ n, dst = .imm n ∧ t = faultEntry (targetFault n) s) ∨
    (∃ a x y, Names s dst a ∧ Holds s a x ∧ Reads s src y ∧
      t = { s with regs := s.regs.set a.toNat (f x y), pc := s.pc + 1 }) := by
  unfold readModifyWrite at h
  cases hd : resolveRead s dst with
  | error r =>
    obtain ⟨k, hk, rfl⟩ := resolveRead_eq_error.mp hd
    simp only [hd, bind, Except.bind, settle_error, Host.Outcome.next.injEq] at h
    exact .inl ⟨k, .inl hk, h.symm⟩
  | ok x =>
    cases hr : resolveRead s src with
    | error r =>
      obtain ⟨k, hk, rfl⟩ := resolveRead_eq_error.mp hr
      simp only [hd, hr, bind, Except.bind, settle_error, Host.Outcome.next.injEq] at h
      exact .inl ⟨k, .inr hk, h.symm⟩
    | ok y =>
      rcases names_of_reads (resolveRead_eq_ok.mp hd) with ⟨n, rfl⟩ | ⟨a, ha, hx⟩
      · simp only [hd, hr, resolveWrite, bind, Except.bind, settle_error, Host.Outcome.next.injEq] at h
        exact .inr (.inl ⟨n, rfl, h.symm⟩)
      · simp only [hd, hr, resolveWrite_of_names _ ha, bind, Except.bind, settle_ok,
          Host.Outcome.next.injEq] at h
        exact .inr (.inr ⟨a, x, y, ha, hx, resolveRead_eq_ok.mp hr, h.symm⟩)

/-- Everything CMP can do (spec/41_alu_data.md R124). -/
theorem execCmp_inv {op1 op2 : Operand} {s t : State} (h : execCmp op1 op2 s = .next t) :
    (∃ k, (Unresolvable s op1 k ∨ Unresolvable s op2 k) ∧ t = faultEntry (rangeFault k) s) ∨
    (∃ x y, Reads s op1 x ∧ Reads s op2 y ∧
      t = { s with flag := compareSigned x y, pc := s.pc + 1 }) := by
  unfold execCmp at h
  cases h1 : resolveRead s op1 with
  | error r =>
    obtain ⟨k, hk, rfl⟩ := resolveRead_eq_error.mp h1
    simp only [h1, bind, Except.bind, settle_error, Host.Outcome.next.injEq] at h
    exact .inl ⟨k, .inl hk, h.symm⟩
  | ok x =>
    cases h2 : resolveRead s op2 with
    | error r =>
      obtain ⟨k, hk, rfl⟩ := resolveRead_eq_error.mp h2
      simp only [h1, h2, bind, Except.bind, settle_error, Host.Outcome.next.injEq] at h
      exact .inl ⟨k, .inr hk, h.symm⟩
    | ok y =>
      simp only [h1, h2, bind, Except.bind, settle_ok, Host.Outcome.next.injEq] at h
      exact .inr ⟨x, y, resolveRead_eq_ok.mp h1, resolveRead_eq_ok.mp h2, h.symm⟩

/-- Everything a taken jump can do (spec/42_control_transfer.md R140). -/
theorem takeJump_inv {target : Operand} {s t : State} (h : settle s (takeJump target s) = .next t) :
    (∃ k, Unresolvable s target k ∧ t = faultEntry (rangeFault k) s) ∨
    (∃ v, Reads s target v ∧ t = { s with pc := v }) := by
  unfold takeJump at h
  cases hr : resolveRead s target with
  | error r =>
    obtain ⟨k, hk, rfl⟩ := resolveRead_eq_error.mp hr
    simp only [hr, bind, Except.bind, settle_error, Host.Outcome.next.injEq] at h
    exact .inl ⟨k, hk, h.symm⟩
  | ok v =>
    simp only [hr, bind, Except.bind, settle_ok, Host.Outcome.next.injEq] at h
    exact .inr ⟨v, resolveRead_eq_ok.mp hr, h.symm⟩

/-- Everything a conditional jump can do (spec/42_control_transfer.md R142). -/
theorem conditionalJump_inv {want : ComparisonFlag} {target : Operand} {s t : State}
    (h : settle s (conditionalJump want target s) = .next t) :
    (∃ k, s.flag = want ∧ Unresolvable s target k ∧ t = faultEntry (rangeFault k) s) ∨
    (∃ v, s.flag = want ∧ Reads s target v ∧ t = { s with pc := v }) ∨
    (s.flag ≠ want ∧ t = { s with pc := s.pc + 1 }) := by
  unfold conditionalJump at h
  by_cases hf : s.flag = want
  · rw [if_pos hf] at h
    rcases takeJump_inv h with ⟨k, hk, e⟩ | ⟨v, hv, e⟩
    · exact .inl ⟨k, hf, hk, e⟩
    · exact .inr (.inl ⟨v, hf, hv, e⟩)
  · rw [if_neg hf, settle_ok, Host.Outcome.next.injEq] at h
    exact .inr (.inr ⟨hf, h.symm⟩)

/-! ### All instructions -/

/-- The completed effect of an instruction (spec/41_alu_data.md, spec/42_control_transfer.md). -/
def Completes (i : Instr) (s t : State) : Prop :=
  match i with
  | .blank => t = { s with pc := s.pc + 1 }
  | .mov dst src => ∃ a v, Names s dst a ∧ Reads s src v ∧
      t = { s with regs := s.regs.set a.toNat v, pc := s.pc + 1 }
  | .add dst src => ∃ a x y, Names s dst a ∧ Holds s a x ∧ Reads s src y ∧
      t = { s with regs := s.regs.set a.toNat (x + y), pc := s.pc + 1 }
  | .mul dst src => ∃ a x y, Names s dst a ∧ Holds s a x ∧ Reads s src y ∧
      t = { s with regs := s.regs.set a.toNat (x * y), pc := s.pc + 1 }
  | .cmp op1 op2 => ∃ x y, Reads s op1 x ∧ Reads s op2 y ∧
      t = { s with flag := compareSigned x y, pc := s.pc + 1 }
  | .jmp o => ∃ v, Reads s o v ∧ t = { s with pc := v }
  | .jeq o => (∃ v, s.flag = .equal ∧ Reads s o v ∧ t = { s with pc := v }) ∨
      (s.flag ≠ .equal ∧ t = { s with pc := s.pc + 1 })
  | .jgt o => (∃ v, s.flag = .greaterThan ∧ Reads s o v ∧ t = { s with pc := v }) ∨
      (s.flag ≠ .greaterThan ∧ t = { s with pc := s.pc + 1 })
  | .jlt o => (∃ v, s.flag = .lessThan ∧ Reads s o v ∧ t = { s with pc := v }) ∨
      (s.flag ≠ .lessThan ∧ t = { s with pc := s.pc + 1 })
  | .halt => t = { s with status := .halted }

/-- An instruction whose destination is the immediate `n`. -/
def WritesImmediate (i : Instr) (n : Word) : Prop :=
  ∃ src, i = .mov (.imm n) src ∨ i = .add (.imm n) src ∨ i = .mul (.imm n) src

/-- Everything `exec` can do: a register fault on an operand, a write fault on an immediate destination,
or the completed effect. -/
theorem exec_inv {i : Instr} {s t : State} (h : exec i s = .next t) :
    (∃ o k, o ∈ i.operands ∧ Unresolvable s o k ∧ t = faultEntry (rangeFault k) s) ∨
    (∃ n, WritesImmediate i n ∧ t = faultEntry (targetFault n) s) ∨
    Completes i s t := by
  cases i with
  | blank => exact .inr (.inr (Host.Outcome.next.inj h).symm)
  | halt => exact .inr (.inr (Host.Outcome.next.inj h).symm)
  | mov dst src =>
    rcases execMov_inv h with ⟨k, hk | hk, e⟩ | ⟨n, rfl, e⟩ | hc
    · exact .inl ⟨src, k, by simp [Instr.operands], hk, e⟩
    · exact .inl ⟨dst, k, by simp [Instr.operands], hk, e⟩
    · exact .inr (.inl ⟨n, ⟨src, .inl rfl⟩, e⟩)
    · exact .inr (.inr hc)
  | add dst src =>
    rcases readModifyWrite_inv h with ⟨k, hk | hk, e⟩ | ⟨n, rfl, e⟩ | hc
    · exact .inl ⟨dst, k, by simp [Instr.operands], hk, e⟩
    · exact .inl ⟨src, k, by simp [Instr.operands], hk, e⟩
    · exact .inr (.inl ⟨n, ⟨src, .inr (.inl rfl)⟩, e⟩)
    · exact .inr (.inr hc)
  | mul dst src =>
    rcases readModifyWrite_inv h with ⟨k, hk | hk, e⟩ | ⟨n, rfl, e⟩ | hc
    · exact .inl ⟨dst, k, by simp [Instr.operands], hk, e⟩
    · exact .inl ⟨src, k, by simp [Instr.operands], hk, e⟩
    · exact .inr (.inl ⟨n, ⟨src, .inr (.inr rfl)⟩, e⟩)
    · exact .inr (.inr hc)
  | cmp op1 op2 =>
    rcases execCmp_inv h with ⟨k, hk | hk, e⟩ | hc
    · exact .inl ⟨op1, k, by simp [Instr.operands], hk, e⟩
    · exact .inl ⟨op2, k, by simp [Instr.operands], hk, e⟩
    · exact .inr (.inr hc)
  | jmp o =>
    rcases takeJump_inv h with ⟨k, hk, e⟩ | hc
    · exact .inl ⟨o, k, by simp [Instr.operands], hk, e⟩
    · exact .inr (.inr hc)
  | jeq o =>
    rcases conditionalJump_inv h with ⟨k, -, hk, e⟩ | hc
    · exact .inl ⟨o, k, by simp [Instr.operands], hk, e⟩
    · exact .inr (.inr hc)
  | jgt o =>
    rcases conditionalJump_inv h with ⟨k, -, hk, e⟩ | hc
    · exact .inl ⟨o, k, by simp [Instr.operands], hk, e⟩
    · exact .inr (.inr hc)
  | jlt o =>
    rcases conditionalJump_inv h with ⟨k, -, hk, e⟩ | hc
    · exact .inl ⟨o, k, by simp [Instr.operands], hk, e⟩
    · exact .inr (.inr hc)

/-- `settle` never stops. -/
theorem settle_next (s : State) (r : Except Raise State) : ∃ t, settle s r = .next t := by
  cases r <;> exact ⟨_, rfl⟩

/-- No instruction stops the machine: `exec` always answers a next state. -/
theorem exec_next (i : Instr) (s : State) : ∃ t, exec i s = .next t := by
  cases i with
  | blank => exact ⟨_, rfl⟩
  | halt => exact ⟨_, rfl⟩
  | mov dst src => exact settle_next s _
  | add dst src => exact settle_next s _
  | mul dst src => exact settle_next s _
  | cmp op1 op2 => exact settle_next s _
  | jmp o => exact settle_next s _
  | jeq o => exact settle_next s _
  | jgt o => exact settle_next s _
  | jlt o => exact settle_next s _

end Sys2Proof.Machine
end

