-- ==== Sys2Proof/Laws/Step.lean ====
section
/-!
SUPPORT. What a step can do, said once (`step_inv`), and how it runs when each case holds.
-/

namespace Sys2Proof.Machine

theorem ifetch_eq_some {s : State} {iw : IWord} : ifetch s s.pc = some iw ↔ Fetches s iw := by
  unfold ifetch Fetches
  by_cases h : 0 ≤ s.pc.toInt <;> simp [h]

theorem terminationTest_eq_true {s : State} :
    terminationTest s = true ↔ PcOutside s ∨ s.steps = s.budget := by
  simp [terminationTest, PcOutside, or_assoc]

theorem terminationTest_eq_false {s : State} :
    terminationTest s = false ↔ ¬ PcOutside s ∧ s.steps ≠ s.budget := by
  rw [← Bool.not_eq_true, terminationTest_eq_true]
  tauto

/-- Inside the store there is a word to fetch (spec/43_fetch_execute_engine.md R163). -/
theorem fetches_of_inside {s : State} (h : ¬ PcOutside s) : ∃ iw, Fetches s iw := by
  have h0 : 0 ≤ s.pc.toInt := by unfold PcOutside at h; omega
  have hi := toInt_toNat_of_nonneg h0
  have hlt : s.pc.toNat < s.imem.length := by unfold PcOutside at h; omega
  exact ⟨s.imem[s.pc.toNat], h0, List.getElem?_eq_getElem hlt⟩

theorem inside_of_fetches {s : State} {iw : IWord} (h : Fetches s iw) : ¬ PcOutside s := by
  obtain ⟨h0, hw⟩ := h
  obtain ⟨hlt, -⟩ := List.getElem?_eq_some_iff.mp hw
  have := toInt_toNat_of_nonneg h0
  unfold PcOutside
  omega

theorem fetches_unique {s : State} {iw iw' : IWord} (h : Fetches s iw) (h' : Fetches s iw') :
    iw = iw' := Option.some.inj (h.2.symm.trans h'.2)

/-- A terminal state's step. -/
theorem step_of_ended {s : State} (h : Ended s) : step s = .next s := by
  unfold step engineStep
  cases hs : s.status with
  | running => exact absurd hs h
  | halted => rfl
  | faulted => rfl

/-- The terminating step. -/
theorem step_of_terminating {s : State} (hr : s.status = .running)
    (h : PcOutside s ∨ s.steps = s.budget) : step s = .next s.halt := by
  unfold step engineStep
  rw [hr]
  simp only [terminationTest_eq_true.mpr h, if_true]

/-- A step that executes the word at the pc. -/
theorem step_of_executes {s : State} {iw : IWord} (h : Executes s iw) :
    step s = executeWord iw s.countStep := by
  obtain ⟨hr, hb, hf⟩ := h
  unfold step engineStep
  rw [hr]
  simp only [terminationTest_eq_false.mpr ⟨inside_of_fetches hf, hb⟩, Bool.false_eq_true, if_false,
    fetchAndExecute, ifetch_eq_some.mpr hf]

theorem step_of_decoded {s : State} {iw : IWord} {i : Instr} (h : Executes s iw)
    (hd : decode iw = .ok i) : step s = exec i s.countStep := by
  rw [step_of_executes h, executeWord, hd]

theorem step_of_malformed {s : State} {iw : IWord} {r : Raise} (h : Executes s iw)
    (hd : decode iw = .error r) : step s = .next (faultEntry r s.countStep) := by
  rw [step_of_executes h, executeWord, hd]

/-- A state has ended, is about to end, or executes a word. -/
theorem state_cases (s : State) :
    Ended s ∨ (s.status = .running ∧ (PcOutside s ∨ s.steps = s.budget)) ∨ ∃ iw, Executes s iw := by
  by_cases hr : s.status = .running
  · by_cases h : PcOutside s ∨ s.steps = s.budget
    · exact .inr (.inl ⟨hr, h⟩)
    · obtain ⟨hp, hb⟩ := not_or.mp h
      obtain ⟨iw, hf⟩ := fetches_of_inside hp
      exact .inr (.inr ⟨iw, hr, hb, hf⟩)
  · exact .inl hr

/-- Everything a step can do (spec/43_fetch_execute_engine.md R160). -/
theorem step_inv {s t : State} (h : step s = .next t) :
    (Ended s ∧ t = s) ∨
    (s.status = .running ∧ (PcOutside s ∨ s.steps = s.budget) ∧ t = s.halt) ∨
    (∃ iw r, Executes s iw ∧ decode iw = .error r ∧ t = faultEntry r s.countStep) ∨
    (∃ iw i, Executes s iw ∧ decode iw = .ok i ∧ exec i s.countStep = .next t) := by
  rcases state_cases s with he | ⟨hr, ht⟩ | ⟨iw, hx⟩
  · exact .inl ⟨he, (Host.Outcome.next.inj ((step_of_ended he).symm.trans h)).symm⟩
  · exact .inr (.inl ⟨hr, ht, (Host.Outcome.next.inj ((step_of_terminating hr ht).symm.trans h)).symm⟩)
  · cases hd : decode iw with
    | error r =>
      have e := Host.Outcome.next.inj ((step_of_malformed hx hd).symm.trans h)
      exact .inr (.inr (.inl ⟨iw, r, hx, hd, e.symm⟩))
    | ok i => exact .inr (.inr (.inr ⟨iw, i, hx, hd, (step_of_decoded hx hd).symm.trans h⟩))

/-! ### Memory -/

/-- An instruction keeps the sizes, the store and the budget. -/
theorem exec_keeps_parameters {i : Instr} {s t : State} (h : exec i s = .next t) :
    t.imem = s.imem ∧ t.budget = s.budget ∧ t.regs.length = s.regs.length ∧ t.steps = s.steps := by
  rcases exec_inv h with ⟨o, k, -, -, rfl⟩ | ⟨n, -, rfl⟩ | hc
  · simp
  · simp
  · cases i <;> simp only [Completes] at hc
    case blank => subst hc; simp
    case halt => subst hc; simp
    case mov => obtain ⟨a, v, -, -, rfl⟩ := hc; simp
    case add => obtain ⟨a, x, y, -, -, -, rfl⟩ := hc; simp
    case mul => obtain ⟨a, x, y, -, -, -, rfl⟩ := hc; simp
    case cmp => obtain ⟨x, y, -, -, rfl⟩ := hc; simp
    case jmp => obtain ⟨v, -, rfl⟩ := hc; simp
    all_goals rcases hc with ⟨v, -, -, rfl⟩ | ⟨-, rfl⟩ <;> simp

/-- An instruction keeps both spaces within their bounds. -/
theorem exec_keeps_memory_wf {i : Instr} {s t : State} (h : exec i s = .next t) :
    Memory.wf t = Memory.wf s := by
  obtain ⟨hm, -, hr, -⟩ := exec_keeps_parameters h
  simp [Memory.wf, State.registerCount, State.instructionCount, hm, hr]

end Sys2Proof.Machine
end

