-- ==== Sys2Proof/Laws/Run.lean ====
section
/-!
SUPPORT. Runs: how `Reaches` unfolds, one step at a time, and that every state has a next state to run
to.
-/

namespace Sys2Proof.Machine

/-- The host's run, one step unfolded. -/
theorem run_succ_of_next (M : Host.Core) (n : Nat) {s u : M.State} (h : M.step s = .next u) :
    M.run (n + 1) s = M.run n u := by
  rw [Host.Core.run, h]

theorem reaches_zero {s t : State} : Reaches 0 s t ↔ s = t :=
  ⟨fun h => Host.Outcome.next.inj h, fun h => h ▸ rfl⟩

theorem reaches_succ {n : Nat} {s t u : State} (h : step s = .next u) :
    Reaches (n + 1) s t ↔ Reaches n u t := by
  have e : Host.Core.run Sys2Proof.core (n + 1) s = Host.Core.run Sys2Proof.core n u :=
    run_succ_of_next Sys2Proof.core n h
  unfold Reaches
  rw [e]

/-- An ended run stays where it is. -/
theorem reaches_of_ended {s : State} (n : Nat) (h : Ended s) : Reaches n s s := by
  induction n with
  | zero => exact reaches_zero.mpr rfl
  | succ n ih => exact (reaches_succ (step_of_ended h)).mpr ih

/-- A launch that answers a state was admitted, and the state is the launch state. -/
theorem launch_inv {l : LaunchItems} {s : State} (h : launch l = .next s) :
    launchAdmitted l = true ∧ s = launchState l := by
  unfold launch at h
  split at h
  · exact ⟨by assumption, (Host.Outcome.next.inj h).symm⟩
  · cases h

end Sys2Proof.Machine
end

