-- ==== Sys2Proof/Laws/Parametric.lean ====
section
/-!
SUPPORT. The core and the machine over numbers (Sys2Proof/Machine/Parametric.lean) at the core's
parameters: decoder, register file, operand resolver and arithmetic agree, one lemma each.
-/

namespace Sys2Proof.Machine

/-! ### From the core to numbers -/

/-- A fault of the core as numbers. -/
def raiseView (r : Raise) : IntRaise := (r.kind, r.info.toInt)

/-- A result of the core as numbers. -/
def resultView {α β : Type} (f : α → β) : Except Raise α → Except IntRaise β
  | .ok a => .ok (f a)
  | .error r => .error (raiseView r)

/-- An operand of the core as numbers. -/
def operandView : Operand → IntOperand
  | .imm v => .imm v.toNat
  | .reg idx => .reg idx.toNat
  | .ptr idx => .ptr idx.toNat

/-- An instruction of the core as numbers. -/
def instrView : Instr → IntInstr
  | .blank => .blank
  | .mov dst src => .mov (operandView dst) (operandView src)
  | .add dst src => .add (operandView dst) (operandView src)
  | .mul dst src => .mul (operandView dst) (operandView src)
  | .cmp op1 op2 => .cmp (operandView op1) (operandView op2)
  | .jmp target => .jmp (operandView target)
  | .jeq target => .jeq (operandView target)
  | .jgt target => .jgt (operandView target)
  | .jlt target => .jlt (operandView target)
  | .halt => .halt

@[simp] theorem resultView_ok {α β : Type} (f : α → β) (a : α) : resultView f (.ok a) = .ok (f a) := rfl
@[simp] theorem resultView_error {α β : Type} (f : α → β) (r : Raise) :
    resultView f (.error r) = .error (raiseView r) := rfl

/-! ### Arithmetic -/

/-- A number below half the register range is its own signed value. -/
theorem toInt_eq_toNat {v : Word} (h : v.toNat < 2 ^ (Config.xlen - 1)) : v.toInt = v.toNat := by
  have e : 2 ^ Config.xlen = 2 * 2 ^ (Config.xlen - 1) := (pow_succ' 2 (Config.xlen - 1))
  rw [BitVec.toInt_eq_toNat_cond, if_pos (by omega)]

/-- An encodable operand's number is its signed value (spec/30_encoding.md R77). -/
theorem Operand.toInt_of_wf {o : Operand} (h : o.wf = true) : o.value.toInt = o.value.toNat :=
  toInt_eq_toNat ((Operand.wf_iff.mp h).trans_le two_pow_immW_le)

theorem wrapAt_add (x y : Word) : wrapAt Config.params (x.toInt + y.toInt) = (x + y).toInt :=
  (BitVec.toInt_add x y).symm

theorem wrapAt_mul (x y : Word) : wrapAt Config.params (x.toInt * y.toInt) = (x * y).toInt :=
  (BitVec.toInt_mul x y).symm

@[simp] theorem wrapAt_toInt (x : Word) : wrapAt Config.params x.toInt = x.toInt := by
  rw [wrapAt, ← BitVec.toInt_ofInt, BitVec.ofInt_toInt]

theorem intCompare_toInt (x y : Word) : intCompare x.toInt y.toInt = compareSigned x y := rfl

/-! ### Updates of the state -/

theorem intView_advance (s : State) :
    intView s.advance = (intView s).advance (wrapAt Config.params) := by
  simp only [intView, State.advance, IntState.advance, ← show (1 : Word).toInt = 1 from rfl, wrapAt_add]

theorem intView_faultEntry (r : Raise) (s : State) :
    intView (faultEntry r s) = intFault (wrapAt Config.params) (raiseView r) (intView s) := by
  simp only [intView, faultEntry, intFault, raiseView, wrapAt_toInt]

theorem intView_countStep {s : State} (h : s.steps.toNat < s.budget.toNat) :
    intView s.countStep = { intView s with steps := (intView s).steps + 1 } := by
  simp only [intView, State.countStep, steps_succ_toNat h]

/-! ### The register file and the resolver -/

theorem intRead_view (s : State) (i : Word) :
    intRead (intView s) i.toInt = resultView BitVec.toInt (regRead s i) := by
  rcases holds_or_outOfBounds s i with ⟨v, h⟩ | h
  · obtain ⟨h0, hN⟩ := inRange_eq_true.mp (inRange_of_holds h)
    have hi : i.toInt.toNat = i.toNat := by have := toInt_toNat_of_nonneg h0; omega
    rw [regRead_eq_ok.mpr h, intRead, if_pos ⟨h0, by simpa [intView] using hN⟩, hi]
    simp [intView, List.getD_eq_getElem?_getD, h.2]
  · rw [regRead_eq_error.mpr ⟨h, rfl⟩, intRead, if_neg]
    · rfl
    · simp only [intView, List.length_map]
      unfold OutOfBounds at h
      omega

theorem intWrite_view (s : State) (i v : Word) :
    intWrite (intView s) i.toInt v.toInt = resultView intView (regWrite s i v) := by
  rcases holds_or_outOfBounds s i with ⟨w, h⟩ | h
  · obtain ⟨h0, hN⟩ := inRange_eq_true.mp (inRange_of_holds h)
    have hi : i.toInt.toNat = i.toNat := by have := toInt_toNat_of_nonneg h0; omega
    rw [regWrite_eq_ok.mpr ⟨⟨w, h⟩, rfl⟩, intWrite, if_pos ⟨h0, by simpa [intView] using hN⟩, hi]
    simp [intView, List.map_set]
  · rw [regWrite_eq_error.mpr ⟨h, rfl⟩, intWrite, if_neg]
    · rfl
    · simp only [intView, List.length_map]
      unfold OutOfBounds at h
      omega

theorem intResolveRead_view {s : State} {o : Operand} (h : o.wf = true) :
    intResolveRead (intView s) (operandView o) = resultView BitVec.toInt (resolveRead s o) := by
  have e := Operand.toInt_of_wf h
  cases o with
  | imm v => exact congrArg Except.ok e.symm
  | reg idx =>
    have e : idx.toInt = idx.toNat := e
    simp only [operandView, intResolveRead, resolveRead, ← e, intRead_view]
  | ptr idx =>
    have e : idx.toInt = idx.toNat := e
    simp only [operandView, intResolveRead, resolveRead, ← e, intRead_view]
    cases regRead s idx with
    | error r => rfl
    | ok a => exact intRead_view s a

theorem intResolveWrite_view {s : State} {o : Operand} (v : Word) (h : o.wf = true) :
    intResolveWrite (intView s) v.toInt (operandView o) = resultView intView (resolveWrite s v o) := by
  have e := Operand.toInt_of_wf h
  cases o with
  | imm n => exact congrArg (fun m => Except.error (FaultKind.invalidWriteTarget, m)) e.symm
  | reg idx =>
    have e : idx.toInt = idx.toNat := e
    simp only [operandView, intResolveWrite, resolveWrite, ← e, intWrite_view]
  | ptr idx =>
    have e : idx.toInt = idx.toNat := e
    simp only [operandView, intResolveWrite, resolveWrite, ← e, intRead_view]
    cases regRead s idx with
    | error r => rfl
    | ok a => exact intWrite_view s a v

/-! ### The decoder -/

/-- Both decoders read the same operand from a slot. -/
theorem intOperand_view (slot : Word) (m : BitVec 2) (v : ValueField) :
    (∃ o, decodeOperand m v = some o ∧ intOperand slot.toNat m.toNat v.toNat = .ok (operandView o)) ∨
    (decodeOperand m v = none ∧
      intOperand slot.toNat m.toNat v.toNat = .error (.invalidOperandFormat, (slot.toNat : Int))) := by
  rcases decodeOperand_cases m v with ⟨h, e⟩ | ⟨h, e⟩ | ⟨h, e⟩ | ⟨h, e⟩
  · exact .inl ⟨_, e, by rw [h, operandView, zext_toNat]; rfl⟩
  · exact .inl ⟨_, e, by rw [h, operandView, zext_toNat]; rfl⟩
  · exact .inl ⟨_, e, by rw [h, operandView, zext_toNat]; rfl⟩
  · exact .inr ⟨e, by rw [h]; rfl⟩

/-- Both decoders read the same operand from slot 1 of a word. -/
theorem intOperand1_view (iw : IWord) :
    (∃ o, decodeOperand (m1Field iw) (v1Field iw) = some o ∧
      intOperand1 Config.immW iw.toNat = .ok (operandView o)) ∨
    (decodeOperand (m1Field iw) (v1Field iw) = none ∧
      intOperand1 Config.immW iw.toNat = .error (raiseView ⟨.invalidOperandFormat, 1⟩)) := by
  have h := intOperand_view 1 (m1Field iw) (v1Field iw)
  rw [m1Field_toNat, v1Field_toNat] at h
  exact h

/-- Both decoders read the same operand from slot 2 of a word. -/
theorem intOperand2_view (iw : IWord) :
    (∃ o, decodeOperand (m2Field iw) (v2Field iw) = some o ∧
      intOperand2 Config.immW iw.toNat = .ok (operandView o)) ∨
    (decodeOperand (m2Field iw) (v2Field iw) = none ∧
      intOperand2 Config.immW iw.toNat = .error (raiseView ⟨.invalidOperandFormat, 2⟩)) := by
  have h := intOperand_view 2 (m2Field iw) (v2Field iw)
  have e : iw.toNat / 2 ^ (10 + Config.immW) % 2 ^ Config.immW = iw.toNat / 2 ^ (10 + Config.immW) := by
    rw [← v2Field_toNat]
    exact Nat.mod_eq_of_lt (v2Field iw).isLt
  rw [m2Field_toNat, v2Field_toNat] at h
  unfold intOperand2
  rw [e]
  exact h

theorem intDecodeOne_view {iw : IWord} {mk : Operand → Instr} {mk' : IntOperand → IntInstr}
    (h : ∀ o, mk' (operandView o) = instrView (mk o)) :
    intDecodeOne Config.immW iw.toNat mk' = resultView instrView (decodeOne iw mk) := by
  unfold intDecodeOne decodeOne
  rcases intOperand1_view iw with ⟨o, e, e'⟩ | ⟨e, e'⟩ <;> rw [e, e']
  · exact congrArg Except.ok (h o)
  · rfl

theorem intDecodeTwo_view {iw : IWord} {mk : Operand → Operand → Instr}
    {mk' : IntOperand → IntOperand → IntInstr}
    (h : ∀ o p, mk' (operandView o) (operandView p) = instrView (mk o p)) :
    intDecodeTwo Config.immW iw.toNat mk' = resultView instrView (decodeTwo iw mk) := by
  unfold intDecodeTwo decodeTwo
  rcases intOperand1_view iw with ⟨o, e, e'⟩ | ⟨e, e'⟩ <;> rw [e, e']
  · rcases intOperand2_view iw with ⟨p, f, f'⟩ | ⟨f, f'⟩ <;> rw [f, f']
    · exact congrArg Except.ok (h o p)
    · rfl
  · rfl

/-- A field of at most four bits, zero-extended, is its own signed value. -/
theorem zext_toInt {w : Nat} (v : BitVec w) (h : w ≤ 4) : (v.setWidth Config.xlen).toInt = v.toNat := by
  have hv : v.toNat < 16 := v.isLt.trans_le (Nat.pow_le_pow_right (by decide) h : 2 ^ w ≤ 2 ^ 4)
  have e : (v.setWidth Config.xlen).toNat = v.toNat := by
    rw [BitVec.toNat_setWidth]
    exact Nat.mod_eq_of_lt (hv.trans (by decide))
  rw [toInt_eq_toNat (by rw [e]; exact hv.trans (by decide)), e]

/-- The two decoders agree on every word (spec/30_encoding.md R78). -/
theorem intDecode_view (iw : IWord) :
    intDecode Config.immW iw.toNat = resultView instrView (decode iw) := by
  unfold intDecode decode
  rw [← opField_toNat, ← cntField_toNat]
  cases opcodeOfNumber (opField iw).toNat with
  | none => rw [resultView_error, raiseView, zext_toInt _ (by decide)]
  | some op =>
    by_cases hc : (cntField iw).toNat = arity op
    · simp only [if_pos hc]
      cases op <;>
        first
        | rfl
        | exact intDecodeOne_view (fun _ => rfl)
        | exact intDecodeTwo_view (fun _ _ => rfl)
    · simp only [if_neg hc]
      rw [resultView_error, raiseView, zext_toInt _ (by decide)]

/-! ### Any parameters -/

/-- What `XLEN` bits keep is in the signed range. -/
theorem wrapAt_fits (c : Config.Params) (n : Int) :
    -2 ^ (c.xlen - 1) ≤ wrapAt c n ∧ wrapAt c n < 2 ^ (c.xlen - 1) := by
  have hx := c.two_le_xlen
  have e : (2 : Nat) ^ c.xlen = 2 * 2 ^ (c.xlen - 1) := by
    rw [← pow_succ', Nat.sub_add_cancel (by omega)]
  have hp : 0 < (2 : Nat) ^ c.xlen := Nat.two_pow_pos _
  have hl := Int.le_bmod (x := n) hp
  have hu := Int.bmod_lt (x := n) hp
  have e' : ((2 ^ c.xlen : Nat) : Int) = 2 * 2 ^ (c.xlen - 1) := by rw [e]; push_cast; rfl
  rw [e'] at hl hu
  unfold wrapAt
  omega

/-- An operand's number is in the signed range (spec/00_scope.md R5: `IMM_W <= XLEN - 1`). -/
theorem immediate_fits (c : Config.Params) {n : Nat} (h : n < 2 ^ c.immW) :
    -2 ^ (c.xlen - 1) ≤ (n : Int) ∧ (n : Int) < 2 ^ (c.xlen - 1) := by
  have hw : 2 ^ c.immW ≤ 2 ^ (c.xlen - 1) := Nat.pow_le_pow_right (by decide) c.immW_le
  have e : ((2 ^ (c.xlen - 1) : Nat) : Int) = 2 ^ (c.xlen - 1) := by push_cast; rfl
  omega

end Sys2Proof.Machine
end

