-- ==== Sys2Proof/Laws/PerInstr.lean ====
section
/-!
SUPPORT. Laws stated for every instruction, one lemma per constructor: its canonical word has the low
six bits of its row of spec/opcode_table.json, and it carries as many operands as its opcode's arity.
-/

namespace Sys2Proof.Laws

/-- The `match` column of spec/30_encoding.md R84 (mask 0x3F). -/
def tableMatch : Instr → Nat
  | .blank => 0x00
  | .mov _ _ => 0x21
  | .add _ _ => 0x22
  | .mul _ _ => 0x23
  | .cmp _ _ => 0x24
  | .jmp _ => 0x15
  | .jeq _ => 0x16
  | .jgt _ => 0x17
  | .jlt _ => 0x18
  | .halt => 0x09

/-- The low six bits of a packed word are its opcode number and operand count. -/
theorem packFields_low (op : BitVec 4) (cnt m1 m2 : BitVec 2) (v1 v2 : ValueField) :
    (packFields op cnt m1 m2 v1 v2).toNat % 64 = op.toNat + 16 * cnt.toNat := by
  have := op.isLt
  have := cnt.isLt
  rw [packFields_toNat, two_pow_ten_add, Nat.mul_assoc]
  omega

/-- The canonical word of the instruction matches its row of the opcode table. -/
def EncodedMatch.Statement (i : Instr) : Prop := (encodeWord i).toNat % 64 = tableMatch i

namespace EncodedMatch
theorem blank : Statement .blank := packFields_low _ _ _ _ _ _
theorem mov (dst src : Operand) : Statement (.mov dst src) := packFields_low _ _ _ _ _ _
theorem add (dst src : Operand) : Statement (.add dst src) := packFields_low _ _ _ _ _ _
theorem mul (dst src : Operand) : Statement (.mul dst src) := packFields_low _ _ _ _ _ _
theorem cmp (op1 op2 : Operand) : Statement (.cmp op1 op2) := packFields_low _ _ _ _ _ _
theorem jmp (target : Operand) : Statement (.jmp target) := packFields_low _ _ _ _ _ _
theorem jeq (target : Operand) : Statement (.jeq target) := packFields_low _ _ _ _ _ _
theorem jgt (target : Operand) : Statement (.jgt target) := packFields_low _ _ _ _ _ _
theorem jlt (target : Operand) : Statement (.jlt target) := packFields_low _ _ _ _ _ _
theorem halt : Statement .halt := packFields_low _ _ _ _ _ _
end EncodedMatch

/-- The instruction carries as many operands as its opcode's arity (spec/30_encoding.md R71). -/
def OperandCount.Statement (i : Instr) : Prop := i.operands.length = arity (opcodeOf i)

namespace OperandCount
theorem blank : Statement .blank := rfl
theorem mov (dst src : Operand) : Statement (.mov dst src) := rfl
theorem add (dst src : Operand) : Statement (.add dst src) := rfl
theorem mul (dst src : Operand) : Statement (.mul dst src) := rfl
theorem cmp (op1 op2 : Operand) : Statement (.cmp op1 op2) := rfl
theorem jmp (target : Operand) : Statement (.jmp target) := rfl
theorem jeq (target : Operand) : Statement (.jeq target) := rfl
theorem jgt (target : Operand) : Statement (.jgt target) := rfl
theorem jlt (target : Operand) : Statement (.jlt target) := rfl
theorem halt : Statement .halt := rfl
end OperandCount

end Sys2Proof.Laws
end

