-- ==== Sys2Proof/Tests/Slice0.lean ====
section
/-!
SUPPORT. The model's own tests. Expected results are those of spec/95_test_vectors.md (the vector's name
is in each comment) or are computed by hand from a rule; the witnesses at the end show, for each
statement with hypotheses, a concrete state and operands that meet them.
-/

namespace Sys2Proof.Tests
open Sys2Proof Sys2Proof.Machine

/-! ### Configuration -/

/-- The configuration SC-CORE/X64-I27 (spec/00_scope.md R5). -/
theorem test_widths : Word = BitVec 64 ∧ IWord = BitVec 64 ∧ ValueField = BitVec 27 ∧
    StepCount = BitVec 32 ∧ Config.maxLength = 9223372036854775807 ∧
    (Config.params.xlen, Config.params.immW, Config.params.stepW) = (64, 27, 32) :=
  ⟨rfl, rfl, rfl, rfl, by decide, rfl⟩

/-! ### Well-formedness refuses each ill-formed operand (spec/30_encoding.md R89) -/

theorem test_wf_largest : (Instr.mov (.ptr 134217727) (.imm 134217727)).wf = true := by decide
theorem test_wf_refuses_immediate : (Instr.jmp (.imm 134217728)).wf = false := by decide
theorem test_wf_refuses_register : (Instr.mov (.reg 134217728) (.imm 0)).wf = false := by decide
theorem test_wf_refuses_pointer : (Instr.cmp (.imm 0) (.ptr 134217728)).wf = false := by decide
theorem test_wf_refuses_negative : (Instr.add (.reg 0) (.imm (-1))).wf = false := by decide
theorem test_encode_refuses : encode (.mov (.reg 0) (.imm 134217728)) = none := by decide

/-! ### Decoding, words written out from spec/30_encoding.md R73 (spec/95_test_vectors.md 2.1) -/

theorem test_decode_blank : decode 0xFFFFFFFFFFFFFFC0 = .ok .blank := by rfl
theorem test_decode_mov : decode 0x00000C60000000A1 = .ok (.mov (.ptr 0) (.imm 99)) := by rfl
theorem test_decode_mov_fields : decode 0xFFFFFFFFFFFFFEA1 =
    .ok (.mov (.ptr 134217727) (.ptr 134217727)) := by rfl
theorem test_decode_add : decode 0x00000C8000000062 = .ok (.add (.reg 0) (.imm 100)) := by rfl
theorem test_decode_mul : decode 0x0000000000000563 = .ok (.mul (.reg 1) (.reg 0)) := by rfl
theorem test_decode_cmp : decode 0x0000006000001424 = .ok (.cmp (.imm 5) (.imm 3)) := by rfl
theorem test_decode_jmp : decode 0x0000000000000495 = .ok (.jmp (.ptr 1)) := by rfl
theorem test_decode_jeq : decode 0x0000000000000C16 = .ok (.jeq (.imm 3)) := by rfl
theorem test_decode_jgt : decode 0x0000000000002017 = .ok (.jgt (.imm 8)) := by rfl
theorem test_decode_jlt : decode 0x0000000000000018 = .ok (.jlt (.imm 0)) := by rfl
theorem test_decode_halt : decode 0xFFFFFFFFFFFFFFC9 = .ok .halt := by rfl
theorem test_decode_opcode_first : decode 0xFFFFFFFFFFFFFFFF = .error ⟨.unknownOpcode, 15⟩ := by rfl
theorem test_decode_arity_first : decode 0x00000000000000D2 = .error ⟨.arityMismatch, 1⟩ := by rfl
theorem test_decode_slot_1_first : decode 0x00000000000003E1 = .error ⟨.invalidOperandFormat, 1⟩ := by rfl
theorem test_decode_slot_2 : decode 0x0000000000000361 = .error ⟨.invalidOperandFormat, 2⟩ := by rfl
theorem test_encode_mov : encode (.mov (.ptr 1) (.ptr 0)) = some 0x00000000000006A1 := by decide
theorem test_encode_jgt : encode (.jgt (.imm 8)) = some 0x0000000000002017 := by decide
theorem test_table_word : decodeTableWord 64 0x0000000000000563 = some (.mul (.reg 1) (.reg 0)) := by rfl
/-- The byte sequence of `ADD R0, V100` (spec/95_test_vectors.md, conventions). -/
theorem test_bytes : bytesOfWord 0x00000C8000000062 = [0x62, 0, 0, 0, 0x80, 0x0C, 0, 0] := by decide
theorem test_decode_bytes : (decodeBytes [0x62, 0, 0, 0, 0x80, 0x0C, 0, 0, 7]).map Prod.snd = some [7] := by
  decide

/-! ### One step on a small state (spec/95_test_vectors.md section 2) -/

/-- The state of the single-step vectors: 16 words, HALT but for `iw` at index 4; pc 4. -/
def vector (x : List Word) (f : ComparisonFlag) (iw : IWord) : State where
  regs := x
  pc := 4
  flag := f
  steps := 0
  status := .running
  errKind := none
  errInfo := 0
  imem := (List.replicate 16 9).set 4 iw
  budget := 500000

/-- The state after one step, where there is one. -/
def after (s : State) : Option State :=
  match step s with
  | .next t => some t
  | .fault _ => none
  | .refused _ => none

/-- What a vector's row lists of the state after the step. -/
def row (s : State) : Option (List Word × Word × ComparisonFlag × Status) :=
  (after s).map fun t => (t.regs, t.pc, t.flag, t.status)

/-- The fault record after the step. -/
def faultOf (s : State) : Option (Option FaultKind × Word) := (after s).map fun t => (t.errKind, t.errInfo)

-- M6, M18
theorem test_mov_through_pointers : row (vector [2, 3, -5, 7] .equal 0x00000020000002A1) =
    some ([2, 3, 7, 7], 5, .equal, .running) := by decide
theorem test_mov_source_fault_first : faultOf (vector [2, 3, -5, 7] .equal 0x00000C6000000521) =
    some (some .registerOutOfRange, 99) := by decide
-- A4, A11
theorem test_add_wraps : row (vector [0x7FFFFFFFFFFFFFFF] .equal 0x0000002000000062) =
    some ([0x8000000000000000], 5, .equal, .running) := by decide
theorem test_add_immediate_target : faultOf (vector [0] .equal 0x0000006000001422) =
    some (some .invalidWriteTarget, 5) := by decide
-- U11, U6
theorem test_mul_wraps : row (vector [3037000500] .equal 0x0000000000000163) =
    some ([-9223372036709301616], 5, .equal, .running) := by decide
theorem test_mul_signs : row (vector [-3, -4] .equal 0x0000002000000163) =
    some ([12, -4], 5, .equal, .running) := by decide
-- C6, C11
theorem test_cmp_extremes : row (vector [0x8000000000000000, 0x7FFFFFFFFFFFFFFF] .equal
    0x0000002000000164) =
    some ([0x8000000000000000, 0x7FFFFFFFFFFFFFFF], 5, .lessThan, .running) := by decide
theorem test_cmp_fault_keeps_flag : row (vector [4, 4] .greaterThan 0x0000012000000164) =
    some ([4, 4], 4, .greaterThan, .faulted) := by decide
-- J4, J9
theorem test_jmp_negative : row (vector [9, 1, -3, 100] .equal 0x0000000000000855) =
    some ([9, 1, -3, 100], -3, .equal, .running) := by decide
theorem test_jmp_second_hop : faultOf (vector [9, 1, -3, 100] .equal 0x0000000000000895) =
    some (some .registerOutOfRange, -3) := by decide
-- J19, J20
theorem test_jeq_not_taken : row (vector [9, 1, -3, 100] .lessThan 0x0000000000018C56) =
    some ([9, 1, -3, 100], 5, .lessThan, .running) := by decide
theorem test_jeq_taken_faults : faultOf (vector [9, 1, -3, 100] .equal 0x0000000000018C56) =
    some (some .registerOutOfRange, 99) := by decide
-- J14, J15
theorem test_jgt_taken : row (vector [9, 1, -3, 100] .greaterThan 0x0000000000001C17) =
    some ([9, 1, -3, 100], 7, .greaterThan, .running) := by decide
theorem test_jgt_not_taken : row (vector [9, 1, -3, 100] .lessThan 0x0000000000001C17) =
    some ([9, 1, -3, 100], 5, .lessThan, .running) := by decide
-- J18, J23
theorem test_jlt_taken : row (vector [9, 1, -3, 100] .lessThan 0x0000000000001C18) =
    some ([9, 1, -3, 100], 7, .lessThan, .running) := by decide
theorem test_jlt_malformed_target : faultOf (vector [9, 1, -3, 100] .equal 0x00000000000000D8) =
    some (some .invalidOperandFormat, 1) := by decide
-- H2 (and steps counted, H1)
theorem test_halt : row (vector [1, 2] .equal 0xFFFFFFFFFFFFFFC9) =
    some ([1, 2], 4, .equal, .halted) := by decide
theorem test_halt_is_counted : (after (vector [1, 2] .lessThan 9)).map State.steps = some 1 := by decide
-- B2, B4
theorem test_blank : row (vector [1, 2] .equal 0xFFFFFFFFFFFFFFC0) =
    some ([1, 2], 5, .equal, .running) := by decide
theorem test_blank_with_operands : faultOf (vector [1, 2] .equal 0x0000000000000010) =
    some (some .arityMismatch, 1) := by decide
-- G1, G2: the termination test
theorem test_empty_program : after State.reset = some { State.reset with status := .halted } := by decide
theorem test_budget_zero : after { vector [0] .equal 0x0000002000000062 with budget := 0 } =
    some { vector [0] .equal 0x0000002000000062 with budget := 0, status := .halted } := by decide
-- F16: the host reads the codes of a faulted run
theorem test_read_out : (after (vector [-1] .equal 0x00000020000000A4)).map
    (fun t => (statusCode t.status, errKindCode t.errKind, t.errInfo)) =
    some (2, 4, 0xFFFFFFFFFFFFFFFF) := by decide
theorem test_placed_word : (after (State.reset.withFetchWord 64 0x0000006000000461)).map
    (fun t => (t.regs[1]?, t.pc)) = some (some 3, 1) := by decide

/-! ### Launch and text -/

theorem test_launch_refuses_wide : launchAdmitted ⟨[2 ^ 63], [], none⟩ = false := by decide
theorem test_launch_refuses_negative_budget : launchAdmitted ⟨[], [], some (-1)⟩ = false := by decide
/-- `"ADD  R0 ,, V100"` (spec/95_test_vectors.md 2.1). -/
theorem test_assemble_separators : assemble ['A', 'D', 'D', ' ', ' ', 'R', '0', ' ', ',', ',', ' ', 'V',
    '1', '0', '0'] = some 0x00000C8000000062 := by decide
/-- `"MOV R0, V1x"`. -/
theorem test_assemble_trailing : assemble ['M', 'O', 'V', ' ', 'R', '0', ',', ' ', 'V', '1', 'x'] =
    some 0x0000000000000361 := by decide
/-- `"ADD R0, V1, V2"`. -/
theorem test_assemble_three_operands : assemble ['A', 'D', 'D', ' ', 'R', '0', ',', 'V', '1', ',', 'V',
    '2'] = some 0x0000002000000072 := by decide
/-- `"MOV R0, V134217728"` is refused. -/
theorem test_assemble_refuses : assemble ['M', 'O', 'V', ' ', 'R', '0', ',', 'V', '1', '3', '4', '2', '1',
    '7', '7', '2', '8'] = none := by decide

/-! ### Witnesses: a concrete state and operands that meet the hypotheses of each statement that has any

`test_witness_<statement>`, with a clause's name where the statement has several. -/

/-- The registers of the resolver vectors (spec/95_test_vectors.md 2.2), a CMP before them having left
the flag `f`, about to execute `iw`. -/
def four (f : ComparisonFlag) (iw : IWord) : State := vector [2, 3, -5, 7] f iw

/-- The same with HALT at the pc and the flag Equal. -/
def fourHalt : State := four .equal 9

/-- Every vector state executes its word, so the premise `Executes` of a statement is met for each word. -/
theorem test_witness_executes (x : List Word) (f : ComparisonFlag) (iw : IWord) :
    Executes (vector x f iw) iw :=
  ⟨rfl, show (0 : StepCount) ≠ 500000 by decide, show 0 ≤ (4 : Word).toInt by decide, rfl⟩

-- Encoding and decoding
theorem test_witness_DecodeInvertsEncode :
    (Instr.mov (.ptr 134217727) (.imm 134217727)).wf = true := by decide
theorem test_witness_EncoderRefusesOversizedOperands :
    ∃ o ∈ (Instr.mov (.reg 0) (.imm 134217728)).operands, 2 ^ 27 ≤ o.value.toNat := by decide
theorem test_witness_EncodeInvertsDecodeOnCanonicalWords_one :
    decode 0x0000000000000C16 = .ok (.jeq (.imm 3)) ∧
    (arityOfNumber (opNumber 0x0000000000000C16) ≤ 1 →
      m2Number 0x0000000000000C16 = 0 ∧ v2Number 0x0000000000000C16 = 0) ∧
    (arityOfNumber (opNumber 0x0000000000000C16) = 0 →
      m1Number 0x0000000000000C16 = 0 ∧ v1Number 0x0000000000000C16 = 0) :=
  ⟨rfl, by decide, by decide⟩
theorem test_witness_EncodeInvertsDecodeOnCanonicalWords_none :
    decode 9 = .ok .halt ∧ (arityOfNumber (opNumber 9) ≤ 1 → m2Number 9 = 0 ∧ v2Number 9 = 0) ∧
    (arityOfNumber (opNumber 9) = 0 → m1Number 9 = 0 ∧ v1Number 9 = 0) := ⟨rfl, by decide, by decide⟩
theorem test_witness_IllegalWordsFault_opcode :
    10 ≤ opNumber 0x0A ∧ 10 ≤ opNumber 0xFFFFFFFFFFFFFFFF ∧ opNumber 0x09 = 9 := by decide
theorem test_witness_IllegalWordsFault_arity :
    (opNumber 0x10 ≤ 9 ∧ cntNumber 0x10 ≠ arityOfNumber (opNumber 0x10)) ∧
    (opNumber 0x59 ≤ 9 ∧ cntNumber 0x59 ≠ arityOfNumber (opNumber 0x59)) := by decide
theorem test_witness_IllegalWordsFault_slot_1 :
    (opNumber 0xD6 ≤ 9 ∧ cntNumber 0xD6 = arityOfNumber (opNumber 0xD6) ∧
      1 ≤ arityOfNumber (opNumber 0xD6) ∧ m1Number 0xD6 = 3) ∧
    (opNumber 0x3E1 ≤ 9 ∧ cntNumber 0x3E1 = arityOfNumber (opNumber 0x3E1) ∧
      1 ≤ arityOfNumber (opNumber 0x3E1) ∧ m1Number 0x3E1 = 3) := by decide
theorem test_witness_IllegalWordsFault_slot_2 :
    opNumber 0x361 ≤ 9 ∧ cntNumber 0x361 = arityOfNumber (opNumber 0x361) ∧
      arityOfNumber (opNumber 0x361) = 2 ∧ m1Number 0x361 ≠ 3 ∧ m2Number 0x361 = 3 := by decide
theorem test_witness_IllegalWordsFault_executes : Executes (four .equal 0x361) 0x361 :=
  test_witness_executes _ _ _
theorem test_witness_LegalWordsDecode_two : opNumber 0xFFFFFFFFFFFFFEA1 ≤ 9 ∧
    cntNumber 0xFFFFFFFFFFFFFEA1 = arityOfNumber (opNumber 0xFFFFFFFFFFFFFEA1) ∧
    (1 ≤ arityOfNumber (opNumber 0xFFFFFFFFFFFFFEA1) → m1Number 0xFFFFFFFFFFFFFEA1 ≠ 3) ∧
    (arityOfNumber (opNumber 0xFFFFFFFFFFFFFEA1) = 2 → m2Number 0xFFFFFFFFFFFFFEA1 ≠ 3) := by decide
theorem test_witness_LegalWordsDecode_one : opNumber 0x000000A000001F15 ≤ 9 ∧
    cntNumber 0x000000A000001F15 = arityOfNumber (opNumber 0x000000A000001F15) ∧
    (1 ≤ arityOfNumber (opNumber 0x000000A000001F15) → m1Number 0x000000A000001F15 ≠ 3) ∧
    (arityOfNumber (opNumber 0x000000A000001F15) = 2 → m2Number 0x000000A000001F15 ≠ 3) := by decide
theorem test_witness_LegalWordsDecode_none : opNumber 0xFFFFFFFFFFFFFFC9 ≤ 9 ∧
    cntNumber 0xFFFFFFFFFFFFFFC9 = arityOfNumber (opNumber 0xFFFFFFFFFFFFFFC9) ∧
    (1 ≤ arityOfNumber (opNumber 0xFFFFFFFFFFFFFFC9) → m1Number 0xFFFFFFFFFFFFFFC9 ≠ 3) ∧
    (arityOfNumber (opNumber 0xFFFFFFFFFFFFFFC9) = 2 → m2Number 0xFFFFFFFFFFFFFFC9 ≠ 3) := by decide
theorem test_witness_UnusedFieldsAreIgnored :
    opNumber 0xA000001F15 = opNumber 0x1C15 ∧ cntNumber 0xA000001F15 = cntNumber 0x1C15 ∧
    (1 ≤ arityOfNumber (opNumber 0xA000001F15) →
      m1Number 0xA000001F15 = m1Number 0x1C15 ∧ v1Number 0xA000001F15 = v1Number 0x1C15) ∧
    (arityOfNumber (opNumber 0xA000001F15) = 2 →
      m2Number 0xA000001F15 = m2Number 0x1C15 ∧ v2Number 0xA000001F15 = v2Number 0x1C15) := by decide
theorem test_witness_UnusedFieldsAreIgnored_canonical :
    (encode (.jmp (.imm 7)) = some 0x1C15 ∧ arityOfNumber (opNumber 0x1C15) ≤ 1) ∧
    (encode .halt = some 9 ∧ arityOfNumber (opNumber 9) = 0) := by decide
theorem test_witness_BlankWords : opNumber 0x10 = 0 ∧ cntNumber 0x10 ≠ 0 := by decide
theorem test_witness_BlankWords_executes : Executes (four .equal 0x10) 0x10 :=
  test_witness_executes _ _ _

-- The register file and the operand resolver: indices 0, N - 1, N, -1
theorem test_witness_RegisterRead_holds : Holds fourHalt 0 2 ∧ Holds fourHalt 3 7 :=
  ⟨⟨by decide, rfl⟩, ⟨by decide, rfl⟩⟩
theorem test_witness_RegisterRead_outside : OutOfBounds fourHalt 4 ∧ OutOfBounds fourHalt (-1) :=
  ⟨.inr (by decide), .inl (by decide)⟩
theorem test_witness_RegisterWrite : Holds fourHalt 3 7 ∧ (0 : Word) ≠ 3 ∧ OutOfBounds fourHalt 4 :=
  ⟨⟨by decide, rfl⟩, by decide, .inr (by decide)⟩
theorem test_witness_OperandRead_reads :
    Reads fourHalt (.imm 134217727) 134217727 ∧ Reads fourHalt (.reg 3) 7 ∧ Reads fourHalt (.ptr 1) 7 :=
  ⟨rfl, ⟨by decide, rfl⟩, ⟨3, ⟨by decide, rfl⟩, ⟨by decide, rfl⟩⟩⟩
/-- The first hop at `N`, the second hop negative, and the second hop at 7, above `N`. -/
theorem test_witness_OperandRead_fails :
    Unresolvable fourHalt (.reg 4) 4 ∧ Unresolvable fourHalt (.ptr 4) 4 ∧
      Unresolvable fourHalt (.ptr 2) (-5) ∧ Unresolvable fourHalt (.ptr 3) 7 :=
  ⟨⟨rfl, .inr (by decide)⟩, .inl ⟨rfl, .inr (by decide)⟩,
    .inr ⟨⟨by decide, rfl⟩, .inl (by decide)⟩, .inr ⟨⟨by decide, rfl⟩, .inr (by decide)⟩⟩
theorem test_witness_OperandWrite :
    (Operand.imm 134217727 = .imm 134217727) ∧ Names fourHalt (.reg 3) 3 ∧ Names fourHalt (.ptr 0) 2 ∧
      Unresolvable fourHalt (.reg 4) 4 ∧ Unresolvable fourHalt (.ptr 2) (-5) :=
  ⟨rfl, ⟨rfl, 7, by decide, rfl⟩, ⟨⟨by decide, rfl⟩, -5, by decide, rfl⟩, ⟨rfl, .inr (by decide)⟩,
    .inr ⟨⟨by decide, rfl⟩, .inl (by decide)⟩⟩
theorem test_witness_DestinationResolvesTwiceAlike :
    ((∀ n, Operand.ptr 1 ≠ .imm n) ∧ resolveRead fourHalt (.ptr 1) = .ok 7) ∧
    ((∀ n, Operand.reg 3 ≠ .imm n) ∧ resolveRead fourHalt (.reg 3) = .ok 7) :=
  ⟨⟨nofun, rfl⟩, ⟨nofun, rfl⟩⟩

-- The data instructions
theorem test_witness_MovCopiesSourceToDestination_encoding :
    decode 0xFFFFFFFFFFFFFEA1 = .ok (.mov (.ptr 134217727) (.ptr 134217727)) := rfl
theorem test_witness_MovCopiesSourceToDestination_completes :
    Names fourHalt (.ptr 0) 2 ∧ Reads fourHalt (.ptr 1) 7 :=
  ⟨⟨⟨by decide, rfl⟩, -5, by decide, rfl⟩, ⟨3, ⟨by decide, rfl⟩, ⟨by decide, rfl⟩⟩⟩
theorem test_witness_MovCopiesSourceToDestination_faults :
    Unresolvable fourHalt (.reg 4) 4 ∧ Reads fourHalt (.imm 0) 0 ∧ Unresolvable fourHalt (.ptr 2) (-5) :=
  ⟨⟨rfl, .inr (by decide)⟩, rfl, .inr ⟨⟨by decide, rfl⟩, .inl (by decide)⟩⟩
theorem test_witness_AddWrapsIntoDestination_encoding :
    decode 0x00000C8000000062 = .ok (.add (.reg 0) (.imm 100)) := rfl
/-- The largest positive register plus 1, and a destination that is its own source. -/
theorem test_witness_AddWrapsIntoDestination_completes :
    (Names (vector [0x7FFFFFFFFFFFFFFF] .equal 9) (.reg 0) 0 ∧
      Holds (vector [0x7FFFFFFFFFFFFFFF] .equal 9) 0 0x7FFFFFFFFFFFFFFF ∧
      Reads (vector [0x7FFFFFFFFFFFFFFF] .equal 9) (.imm 1) 1) ∧
    (Names fourHalt (.reg 3) 3 ∧ Holds fourHalt 3 7 ∧ Reads fourHalt (.reg 3) 7) :=
  ⟨⟨⟨rfl, _, by decide, rfl⟩, ⟨by decide, rfl⟩, rfl⟩,
    ⟨rfl, 7, by decide, rfl⟩, ⟨by decide, rfl⟩, ⟨by decide, rfl⟩⟩
theorem test_witness_AddWrapsIntoDestination_faults :
    Unresolvable fourHalt (.reg 4) 4 ∧ Reads fourHalt (.reg 3) 7 ∧ Unresolvable fourHalt (.ptr 2) (-5) ∧
      Reads fourHalt (.imm 5) 5 :=
  ⟨⟨rfl, .inr (by decide)⟩, ⟨by decide, rfl⟩, .inr ⟨⟨by decide, rfl⟩, .inl (by decide)⟩, rfl⟩
theorem test_witness_MulKeepsLowBitsInDestination_encoding :
    decode 0x0000000000000563 = .ok (.mul (.reg 1) (.reg 0)) := rfl
/-- The most negative register times -1, through the same register file. -/
theorem test_witness_MulKeepsLowBitsInDestination_completes :
    Names (vector [0x8000000000000000, -1] .equal 9) (.reg 0) 0 ∧
      Holds (vector [0x8000000000000000, -1] .equal 9) 0 0x8000000000000000 ∧
      Reads (vector [0x8000000000000000, -1] .equal 9) (.reg 1) (-1) :=
  ⟨⟨rfl, _, by decide, rfl⟩, ⟨by decide, rfl⟩, ⟨by decide, rfl⟩⟩
theorem test_witness_MulKeepsLowBitsInDestination_faults :
    Unresolvable fourHalt (.ptr 3) 7 ∧ Reads fourHalt (.imm 5) 5 ∧ Unresolvable fourHalt (.reg 4) 4 :=
  ⟨.inr ⟨⟨by decide, rfl⟩, .inr (by decide)⟩, rfl, ⟨rfl, .inr (by decide)⟩⟩
theorem test_witness_CmpSetsFlagBySignedOrder_encoding :
    decode 0x0000006000001424 = .ok (.cmp (.imm 5) (.imm 3)) := rfl
/-- The extremes of the signed range: less, greater, equal. -/
theorem test_witness_CmpSetsFlagBySignedOrder_orders :
    (Reads (vector [0x8000000000000000, 0x7FFFFFFFFFFFFFFF] .equal 9) (.reg 0) 0x8000000000000000 ∧
      Reads (vector [0x8000000000000000, 0x7FFFFFFFFFFFFFFF] .equal 9) (.reg 1) 0x7FFFFFFFFFFFFFFF) ∧
    (0x8000000000000000 : Word).toInt < (0x7FFFFFFFFFFFFFFF : Word).toInt ∧
    (-1 : Word).toInt < (0 : Word).toInt ∧ (-1 : Word) = 0xFFFFFFFFFFFFFFFF :=
  ⟨⟨⟨by decide, rfl⟩, ⟨by decide, rfl⟩⟩, by decide, by decide, by decide⟩
theorem test_witness_CmpSetsFlagBySignedOrder_faults :
    Unresolvable fourHalt (.ptr 4) 4 ∧ Reads fourHalt (.imm 134217727) 134217727 ∧
      Unresolvable fourHalt (.ptr 2) (-5) :=
  ⟨.inl ⟨rfl, .inr (by decide)⟩, rfl, .inr ⟨⟨by decide, rfl⟩, .inl (by decide)⟩⟩
theorem test_witness_WrittenRegisterIsReadNext :
    Names fourHalt (.reg 0) 0 ∧ Reads fourHalt (.imm 3) 3 ∧
      Holds { fourHalt with regs := [3, 3, -5, 7], pc := 5 } 3 7 :=
  ⟨⟨rfl, 2, by decide, rfl⟩, rfl, ⟨by decide, rfl⟩⟩

-- Control transfer
theorem test_witness_JmpTakesTargetVerbatim :
    decode 0x0000000000000495 = .ok (.jmp (.ptr 1)) ∧ Reads fourHalt (.reg 2) (-5) ∧
      Reads fourHalt (.imm 134217727) 134217727 ∧ Unresolvable fourHalt (.reg 4) 4 :=
  ⟨rfl, ⟨by decide, rfl⟩, rfl, ⟨rfl, .inr (by decide)⟩⟩
theorem test_witness_ConditionalJumpsFollowTheFlag_table :
    (Instr.jeq, ComparisonFlag.equal, 0x16) ∈ ([(Instr.jeq, .equal, 0x16),
      (Instr.jgt, .greaterThan, 0x17), (Instr.jlt, .lessThan, 0x18)] :
        List ((Operand → Instr) × ComparisonFlag × Nat)) ∧
    (Instr.jgt, ComparisonFlag.greaterThan, 0x17) ∈ ([(Instr.jeq, .equal, 0x16),
      (Instr.jgt, .greaterThan, 0x17), (Instr.jlt, .lessThan, 0x18)] :
        List ((Operand → Instr) × ComparisonFlag × Nat)) ∧
    (Instr.jlt, ComparisonFlag.lessThan, 0x18) ∈ ([(Instr.jeq, .equal, 0x16),
      (Instr.jgt, .greaterThan, 0x17), (Instr.jlt, .lessThan, 0x18)] :
        List ((Operand → Instr) × ComparisonFlag × Nat)) := by simp
theorem test_witness_ConditionalJumpsFollowTheFlag_encoding :
    decode 0x0000000000000C16 = .ok (.jeq (.imm 3)) ∧ decode 0x0000000000002017 = .ok (.jgt (.imm 8)) ∧
      decode 0x0000000000000018 = .ok (.jlt (.imm 0)) := ⟨rfl, rfl, rfl⟩
theorem test_witness_ConditionalJumpsFollowTheFlag_malformed :
    ((0xD6 : IWord).toNat % 64 = 0x16 ∧ m1Number 0xD6 = 3) ∧
    ((0xD7 : IWord).toNat % 64 = 0x17 ∧ m1Number 0xD7 = 3) ∧
    ((0xD8 : IWord).toNat % 64 = 0x18 ∧ m1Number 0xD8 = 3) := by decide
/-- Each flag value with a target that reads and with one that cannot be resolved; the other two values
are those on which the jump is not taken. -/
theorem test_witness_ConditionalJumpsFollowTheFlag_flag (f : ComparisonFlag) :
    (four f 9).flag = f ∧ Reads (four f 9) (.reg 2) (-5) ∧ Unresolvable (four f 9) (.reg 4) 4 ∧
      ∃ g, (four g 9).flag ≠ f := by
  refine ⟨rfl, ⟨by decide, rfl⟩, ⟨rfl, .inr ?_⟩, ?_⟩
  · show ((4 : Nat) : Int) ≤ (4 : Word).toInt
    decide
  · cases f
    · exact ⟨.lessThan, nofun⟩
    · exact ⟨.greaterThan, nofun⟩
    · exact ⟨.equal, nofun⟩
theorem test_witness_JmpTakesTargetVerbatim_slot_2 : (0xA000001F15 : IWord).toNat % 64 = 0x15 ∧
    m1Number 0xA000001F15 ≠ 3 ∧ m2Number 0xA000001F15 = 3 := by decide
theorem test_witness_CompareThenJump :
    Reads fourHalt (.reg 2) (-5) ∧ Reads fourHalt (.imm 0) 0 ∧ Reads fourHalt (.ptr 1) 7 :=
  ⟨⟨by decide, rfl⟩, rfl, ⟨3, ⟨by decide, rfl⟩, ⟨by decide, rfl⟩⟩⟩
theorem test_witness_HaltEndsTheRun : Executes (four .equal 0xFFFFFFFFFFFFFFC9) 0xFFFFFFFFFFFFFFC9 ∧
    (0xFFFFFFFFFFFFFFC9 : IWord).toNat % 64 = 0x09 := ⟨test_witness_executes _ _ _, by decide⟩
theorem test_witness_BlankAdvancesThePc : Executes (four .equal 0xFFFFFFFFFFFFFFC0) 0xFFFFFFFFFFFFFFC0 ∧
    (0xFFFFFFFFFFFFFFC0 : IWord).toNat % 64 = 0x00 := ⟨test_witness_executes _ _ _, by decide⟩

/-- A step that executes `iw` in the vector state and answers `t`. -/
def Runs (x : List Word) (f : ComparisonFlag) (iw : IWord) (t : State) : Prop :=
  Executes (vector x f iw) iw ∧ step (vector x f iw) = .next t

theorem test_witness_NextPcByOutcome_faulted : ∃ t, Runs [0] .equal 0x0A t ∧ t.status = .faulted :=
  ⟨_, ⟨test_witness_executes _ _ _, rfl⟩, rfl⟩
theorem test_witness_NextPcByOutcome_halt : ∃ t, Runs [0] .equal 9 t ∧ decode 9 = .ok .halt :=
  ⟨_, ⟨test_witness_executes _ _ _, rfl⟩, rfl⟩
theorem test_witness_NextPcByOutcome_blank : ∃ t, Runs [0] .equal 0 t ∧ decode 0 = .ok .blank :=
  ⟨_, ⟨test_witness_executes _ _ _, rfl⟩, rfl⟩
theorem test_witness_NextPcByOutcome_mov : ∃ t, Runs [0] .equal 0x61 t ∧ t.status ≠ .faulted ∧
    decode 0x61 = .ok (.mov (.reg 0) (.imm 0)) :=
  ⟨_, ⟨test_witness_executes _ _ _, rfl⟩, by decide, rfl⟩
theorem test_witness_NextPcByOutcome_add : ∃ t, Runs [0] .equal 0x62 t ∧ t.status ≠ .faulted ∧
    decode 0x62 = .ok (.add (.reg 0) (.imm 0)) :=
  ⟨_, ⟨test_witness_executes _ _ _, rfl⟩, by decide, rfl⟩
theorem test_witness_NextPcByOutcome_mul : ∃ t, Runs [0] .equal 0x63 t ∧ t.status ≠ .faulted ∧
    decode 0x63 = .ok (.mul (.reg 0) (.imm 0)) :=
  ⟨_, ⟨test_witness_executes _ _ _, rfl⟩, by decide, rfl⟩
theorem test_witness_NextPcByOutcome_cmp : ∃ t, Runs [0] .equal 0x64 t ∧ t.status ≠ .faulted ∧
    decode 0x64 = .ok (.cmp (.reg 0) (.imm 0)) :=
  ⟨_, ⟨test_witness_executes _ _ _, rfl⟩, by decide, rfl⟩
theorem test_witness_NextPcByOutcome_jmp : ∃ t, Runs [-3] .equal 0x55 t ∧ t.status ≠ .faulted ∧
    decode 0x55 = .ok (.jmp (.reg 0)) :=
  ⟨_, ⟨test_witness_executes _ _ _, rfl⟩, by decide, rfl⟩
/-- JEQ, JGT, JLT of one word each: taken, and not taken. -/
theorem test_witness_NextPcByOutcome_taken :
    (∃ t, Runs [-3] .equal 0x56 t ∧ t.status ≠ .faulted) ∧
    (∃ t, Runs [-3] .greaterThan 0x57 t ∧ t.status ≠ .faulted) ∧
    (∃ t, Runs [-3] .lessThan 0x58 t ∧ t.status ≠ .faulted) ∧
    decode 0x56 = .ok (.jeq (.reg 0)) ∧ decode 0x57 = .ok (.jgt (.reg 0)) ∧
    decode 0x58 = .ok (.jlt (.reg 0)) :=
  ⟨⟨_, ⟨test_witness_executes _ _ _, rfl⟩, by decide⟩, ⟨_, ⟨test_witness_executes _ _ _, rfl⟩, by decide⟩,
    ⟨_, ⟨test_witness_executes _ _ _, rfl⟩, by decide⟩, rfl, rfl, rfl⟩
theorem test_witness_NextPcByOutcome_not_taken :
    (∃ t, Runs [-3] .lessThan 0x56 t ∧ t.status ≠ .faulted) ∧
    (∃ t, Runs [-3] .equal 0x57 t ∧ t.status ≠ .faulted) ∧
    (∃ t, Runs [-3] .greaterThan 0x58 t ∧ t.status ≠ .faulted) :=
  ⟨⟨_, ⟨test_witness_executes _ _ _, rfl⟩, by decide⟩, ⟨_, ⟨test_witness_executes _ _ _, rfl⟩, by decide⟩,
    ⟨_, ⟨test_witness_executes _ _ _, rfl⟩, by decide⟩⟩

-- Rules of the whole machine
theorem test_witness_OnlyMovAddMulWriteRegisters :
    Executes (four .equal 0x0000012000000061) 0x0000012000000061 ∧
    decode 0x0000012000000061 = .ok (.mov (.reg 0) (.imm 9)) ∧
    ∃ t, step (four .equal 0x0000012000000061) = .next t ∧ t.status ≠ .faulted ∧
      t.regs ≠ [2, 3, -5, 7] :=
  ⟨test_witness_executes _ _ _, rfl, _, rfl, by decide, by decide⟩
theorem test_witness_FlagIsSetByCmpAndReadByConditionalJumps_set :
    ∃ t, step (four .equal 0x0000002000000164) = .next t ∧ t.flag ≠ .equal := ⟨_, rfl, by decide⟩
theorem test_witness_FlagIsSetByCmpAndReadByConditionalJumps_read :
    (∀ o, Instr.mov (.reg 0) (.imm 9) ≠ .jeq o ∧ Instr.mov (.reg 0) (.imm 9) ≠ .jgt o ∧
      Instr.mov (.reg 0) (.imm 9) ≠ .jlt o) ∧
    ∃ t, exec (.mov (.reg 0) (.imm 9)) fourHalt = .next t :=
  ⟨fun _ => ⟨nofun, nofun, nofun⟩, _, rfl⟩
theorem test_witness_FlagIsSetByCmpAndReadByConditionalJumps_cmp :
    (∀ o, Instr.cmp (.reg 0) (.reg 3) ≠ .jeq o ∧ Instr.cmp (.reg 0) (.reg 3) ≠ .jgt o ∧
      Instr.cmp (.reg 0) (.reg 3) ≠ .jlt o) ∧
    (∃ t, exec (.cmp (.reg 0) (.reg 3)) fourHalt = .next t ∧ t.flag ≠ fourHalt.flag) ∧
    Reads fourHalt (.reg 0) 2 ∧ Reads fourHalt (.reg 3) 7 :=
  ⟨fun _ => ⟨nofun, nofun, nofun⟩, ⟨_, rfl, by decide⟩, ⟨by decide, rfl⟩, ⟨by decide, rfl⟩⟩
theorem test_witness_RunParametersNeverChange :
    ∃ t, step (four .equal 0x0000012000000061) = .next t := ⟨_, rfl⟩
/-- The last step the budget leaves: `steps = BUDGET - 1`. -/
theorem test_witness_StepsAreCounted_counted :
    ({ fourHalt with steps := 499999 } : State).status = .running ∧
    ¬ PcOutside { fourHalt with steps := 499999 } ∧ (499999 : StepCount) ≠ 500000 ∧
    (499999 : StepCount).toNat ≤ (500000 : StepCount).toNat ∧
    ∃ t, step { fourHalt with steps := 499999 } = .next t :=
  ⟨rfl, by unfold PcOutside; decide, by decide, by decide, _, rfl⟩
theorem test_witness_StepsAreCounted_not_counted :
    Ended { fourHalt with status := .halted } ∧ PcOutside { fourHalt with pc := 16 } ∧
    PcOutside { fourHalt with pc := -1 } ∧ ({ fourHalt with steps := 500000 } : State).steps = 500000 ∧
    ∃ t, step { fourHalt with pc := 16 } = .next t :=
  ⟨nofun, .inr (by decide), .inl (by decide), rfl, _, rfl⟩

-- The engine
theorem test_witness_StepRunsTheDecodedInstruction :
    Executes (four .equal 0x00000C60000000A1) 0x00000C60000000A1 ∧
    decode 0x00000C60000000A1 = .ok (.mov (.ptr 0) (.imm 99)) := ⟨test_witness_executes _ _ _, rfl⟩
theorem test_witness_TerminationTestComesFirst :
    fourHalt.status = .running ∧ PcOutside { fourHalt with pc := 16 } ∧
    ({ fourHalt with budget := 0 } : State).steps = 0 ∧ State.reset.imem = [] ∧
    ¬ PcOutside { fourHalt with pc := 15 } ∧ fourHalt.steps ≠ fourHalt.budget :=
  ⟨rfl, .inr (by decide), rfl, rfl, by unfold PcOutside; decide, by decide⟩
theorem test_witness_TerminalStatesAreKept :
    ({ fourHalt with status := .halted } : State).status = .halted ∧
    ({ fourHalt with status := .faulted } : State).status = .faulted := ⟨rfl, rfl⟩
theorem test_witness_OnlyTheFetchedWordMatters :
    (fourHalt.imem.set 5 0xF).length = fourHalt.imem.length ∧ fourHalt.imem.set 5 0xF ≠ fourHalt.imem ∧
    (fourHalt.imem.set 5 0xF)[fourHalt.pc.toNat]? = fourHalt.imem[fourHalt.pc.toNat]? ∧
    ∃ t, step fourHalt = .next t := ⟨rfl, by decide, rfl, _, rfl⟩
theorem test_witness_FaultsArePrecise : (four .equal 0x0000008000000161).status = .running ∧
    ∃ t, step (four .equal 0x0000008000000161) = .next t ∧ t.status = .faulted := ⟨rfl, _, rfl, rfl⟩
/-- The three ways: the pc at `L`, the budget reached, a HALT; and a step after which the run goes on. -/
theorem test_witness_RunsHaltInThreeWays :
    (∃ t, step { fourHalt with pc := 16 } = .next t ∧ t.status = .halted) ∧
    (∃ t, step { fourHalt with budget := 0 } = .next t ∧ t.status = .halted) ∧
    (∃ t, step fourHalt = .next t ∧ t.status = .halted) ∧
    (∃ t, step (four .equal 0) = .next t ∧ t.status = .running) :=
  ⟨⟨_, rfl, rfl⟩, ⟨_, rfl, rfl⟩, ⟨_, rfl, rfl⟩, ⟨_, rfl, rfl⟩⟩

-- Launch, read-out, result
/-- Admitted at the boundaries: both ends of the signed range, budgets 0 and `2^32 - 1`. -/
theorem test_witness_LaunchSetsEveryElement_admitted :
    (∀ n ∈ ([-2 ^ 63, 2 ^ 63 - 1] : List Int), -2 ^ 63 ≤ n ∧ n < 2 ^ 63) ∧
    (∀ b, some (0 : Int) = some b → 0 ≤ b ∧ b ≤ 2 ^ 32 - 1) ∧
    (∀ b, some (2 ^ 32 - 1 : Int) = some b → 0 ≤ b ∧ b ≤ 2 ^ 32 - 1) ∧
    (∀ b, (none : Option Int) = some b → 0 ≤ b ∧ b ≤ 2 ^ 32 - 1) :=
  ⟨by decide, fun b h => Option.some.inj h ▸ by decide, fun b h => Option.some.inj h ▸ by decide, nofun⟩
theorem test_witness_LaunchSetsEveryElement_refused :
    (∃ n ∈ ([2 ^ 63] : List Int), n < -2 ^ 63 ∨ 2 ^ 63 ≤ n) ∧
    (∃ n ∈ ([-2 ^ 63 - 1] : List Int), n < -2 ^ 63 ∨ 2 ^ 63 ≤ n) ∧
    (∃ b, some (2 ^ 32 : Int) = some b ∧ (b < 0 ∨ 2 ^ 32 - 1 < b)) ∧
    (∃ b, some (-1 : Int) = some b ∧ (b < 0 ∨ 2 ^ 32 - 1 < b)) ∧
    2 ^ 63 - 1 < (List.replicate (2 ^ 63) (0 : Int)).length ∧
    2 ^ 63 - 1 < (List.replicate (2 ^ 63) (0 : IWord)).length :=
  ⟨by decide, by decide, ⟨_, rfl, by decide⟩, ⟨_, rfl, by decide⟩,
    by rw [List.length_replicate]; decide, by rw [List.length_replicate]; decide⟩
theorem test_witness_ReadOutAfterTheRun : State.reset.status = .running ∧
    Ended { fourHalt with status := .halted } ∧ Ended { fourHalt with status := .faulted } :=
  ⟨rfl, nofun, nofun⟩

/-- A launched state of one register holding 5 and the program `iw`, with a budget of 3. -/
def launched (iw : IWord) : State where
  regs := [5]
  pc := 0
  flag := .equal
  steps := 0
  status := .running
  errKind := none
  errInfo := 0
  imem := [iw]
  budget := 3

/-- The premise `launch l = .next s` of the statements about a launch (FlagIsSetByCmpAndReadByConditionalJumps,
CompareThenJump, StepsAreCounted, ResultOfARun, InvariantHoldsAtLaunch, EveryRunEnds). -/
theorem test_witness_launch (iw : IWord) : launch ⟨[5], [iw], some 3⟩ = .next (launched iw) := rfl
theorem test_witness_ResultOfARun :
    (∃ t, Reaches 1 (launched 9) t ∧ t.status = .halted) ∧
    (∃ t, Reaches 1 (launched 0xF) t ∧ t.status = .faulted) ∧
    (∃ t, Reaches 1 (launched 0) t ∧ t.status = .running) :=
  ⟨⟨_, rfl, rfl⟩, ⟨_, rfl, rfl⟩, ⟨_, rfl, rfl⟩⟩

-- Text
theorem test_witness_SeparatorLineAssemblesToBlank :
    ∀ c ∈ [',', ' ', '\t'], isSeparator c = true := List.all_eq_true.mp (by decide)
/-- `FOO R0`. -/
theorem test_witness_MalformedTextFaultsAsItsText_mnemonic :
    tokens ['F', 'O', 'O', ' ', 'R', '0'] = [['F', 'O', 'O'], ['R', '0']] ∧
    (assemble ['F', 'O', 'O', ' ', 'R', '0']).isSome ∧ opcodeOfMnemonic ['F', 'O', 'O'] = none := by decide
/-- `HALT R0`, and `JMP 1,2,3,4` with more tokens than a word counts. -/
theorem test_witness_MalformedTextFaultsAsItsText_arity :
    (tokens ['H', 'A', 'L', 'T', ' ', 'R', '0'] = [['H', 'A', 'L', 'T'], ['R', '0']] ∧
      (assemble ['H', 'A', 'L', 'T', ' ', 'R', '0']).isSome ∧
      opcodeOfMnemonic ['H', 'A', 'L', 'T'] = some .halt ∧ 1 ≠ arity .halt) ∧
    (tokens ['J', 'M', 'P', ' ', '1', ',', '2', ',', '3', ',', '4'] =
        [['J', 'M', 'P'], ['1'], ['2'], ['3'], ['4']] ∧
      (assemble ['J', 'M', 'P', ' ', '1', ',', '2', ',', '3', ',', '4']).isSome ∧
      opcodeOfMnemonic ['J', 'M', 'P'] = some .jmp ∧ 4 ≠ arity .jmp) := by decide
/-- `JMP 5`: no mode letter. -/
theorem test_witness_MalformedTextFaultsAsItsText_slot_1 :
    tokens ['J', 'M', 'P', ' ', '5'] = [['J', 'M', 'P'], ['5']] ∧
    (assemble ['J', 'M', 'P', ' ', '5']).isSome ∧ opcodeOfMnemonic ['J', 'M', 'P'] = some .jmp ∧
    1 = arity .jmp ∧ operandToken ['5'] = none := by decide
/-- `MOV R0 R`: no digits. -/
theorem test_witness_MalformedTextFaultsAsItsText_slot_2 :
    tokens ['M', 'O', 'V', ' ', 'R', '0', ' ', 'R'] = [['M', 'O', 'V'], ['R', '0'], ['R']] ∧
    (assemble ['M', 'O', 'V', ' ', 'R', '0', ' ', 'R']).isSome ∧
    opcodeOfMnemonic ['M', 'O', 'V'] = some .mov ∧ 2 = arity .mov ∧
    operandToken ['R', '0'] ≠ none ∧ operandToken ['R'] = none := by decide

-- Headlines
theorem test_witness_InvariantKeptByEveryStep :
    Inv (launched 0xF) ∧ ∃ t, step (launched 0xF) = .next t ∧ t.status = .faulted := by
  refine ⟨⟨?_, ?_, ?_, ?_, ?_, ?_⟩, _, rfl, rfl⟩
  · show 1 ≤ Config.maxLength
    decide
  · show 1 ≤ Config.maxLength
    decide
  · decide
  · exact ⟨fun h => absurd rfl h, nofun⟩
  · exact fun _ => rfl
  · intro k h
    cases h
theorem test_witness_EveryRunEnds : (launched 0).steps.toNat ≤ (launched 0).budget.toNat := by decide
/-- `JMP V0` forever: still Running after the three steps of its budget. -/
theorem test_witness_ExactStepCountUnderBudget :
    launch ⟨[5], [0x15], some 3⟩ = .next (launched 0x15) ∧
    ∃ t, Reaches (launched 0x15).budget.toNat (launched 0x15) t ∧ t.status = .running :=
  ⟨rfl, _, rfl, rfl⟩
/-- The items of a run with registers at both ends of the signed range, through one CMP. -/
def extremes : LaunchItems := ⟨[-2 ^ 63, 2 ^ 63 - 1], [0x0000002000000164], none⟩

theorem test_witness_AgreesWithUnboundedIntegers :
    (∃ s, launch extremes = .next s) ∧
    ∀ k, k ≤ 1 → ∀ v ∈ (unboundedRun k (intLaunch extremes.asNumbers)).regs, -2 ^ 63 ≤ v ∧ v < 2 ^ 63 := by
  refine ⟨⟨_, rfl⟩, fun k hk => ?_⟩
  have h : ∀ v ∈ ([-2 ^ 63, 2 ^ 63 - 1] : List Int), -2 ^ 63 ≤ v ∧ v < 2 ^ 63 := by decide
  obtain rfl | rfl : k = 0 ∨ k = 1 := by omega
  · exact h
  · exact h

-- The parameters
/-- A small choice of the parameters, at the edge of two constraints of spec/00_scope.md R5. -/
def small : Config.Params where
  xlen := 8
  immW := 7
  stepW := 1
  two_le_xlen := by decide
  one_le_immW := by decide
  immW_le := by decide
  one_le_stepW := by decide

/-- One register holding the largest value and the program `ADD R0, V127`, with the largest budget. -/
def smallItems : IntLaunchItems := ⟨[127], [2 + 16 * 2 + 64 * 1 + 2 ^ 17 * 127], some 1⟩

/-- With 8-bit registers `127 + 127` wraps to -2 (spec/41_alu_data.md R125). -/
theorem test_parametric_add_wraps :
    ((parametricLaunch small smallItems).map fun s => (parametricStep small s).regs) = some [-2] := by decide
/-- The same program over the unbounded integers of the same `IMM_W` gives 254. -/
theorem test_unbounded_add : (intStep 7 id (intLaunch smallItems)).regs = [254] := by decide
/-- Items beyond the small widths: a register of 128, a budget of 2, the default budget, a word of more
than `10 + 2*7` bits. -/
theorem test_parametric_launch_refuses :
    parametricLaunch small ⟨[128], [], some 1⟩ = none ∧ parametricLaunch small ⟨[], [], some 2⟩ = none ∧
    parametricLaunch small ⟨[], [], none⟩ = none ∧ parametricLaunch small ⟨[], [2 ^ 24], some 1⟩ = none := by
  decide
theorem test_witness_CoreIsTheParametricMachine : (launched 0).steps.toNat ≤ (launched 0).budget.toNat := by
  decide
theorem test_witness_ParametricDecodeInvertsEncode :
    ∀ o ∈ (IntInstr.mov (.ptr 127) (.imm 127)).operands, o.value < 2 ^ small.immW := by decide
theorem test_witness_ParametricStepKeepsTheWidths :
    parametricLaunch small smallItems = some (intLaunch smallItems) ∧ FitsAt small (intLaunch smallItems) :=
  ⟨by decide, by decide, by decide, by decide, by decide, by decide, by decide, by decide, by decide⟩

end Sys2Proof.Tests
end

section
/-!
PROOF. The rules of the whole machine from spec/10_state.md (R23, R29, R31, R38): which instruction writes a
register or the flag, which reads the flag, what no step changes, and what the step counter counts. Each is
read off `step_inv` and `exec_inv`, which say once what a step and an instruction can do.
-/

namespace Sys2Proof.Machine

/-! ### What an instruction writes -/

/-- The instruction is a MOV, ADD or MUL with this destination and source (spec/10_state.md R23). -/
def WritesRegister (i : Instr) (dst src : Operand) : Prop :=
  i = .mov dst src ∨ i = .add dst src ∨ i = .mul dst src

/-- An instruction that did not fault has completed. -/
theorem completes_of_not_faulted {i : Instr} {s t : State} (h : exec i s = .next t)
    (hf : t.status ≠ .faulted) : Completes i s t := by
  rcases exec_inv h with ⟨o, k, -, -, rfl⟩ | ⟨n, -, rfl⟩ | hc
  · exact absurd (faultEntry_status _ s) hf
  · exact absurd (faultEntry_status _ s) hf
  · exact hc

/-- A completed MOV, ADD or MUL has written the one register its destination names. -/
theorem Completes.writes_named_register {i : Instr} {dst src : Operand} {s t : State}
    (hi : WritesRegister i dst src) (hc : Completes i s t) :
    ∃ a v, Names s dst a ∧ t.regs = s.regs.set a.toNat v := by
  rcases hi with rfl | rfl | rfl
  · obtain ⟨a, v, ha, -, rfl⟩ := hc
    exact ⟨a, v, ha, rfl⟩
  · obtain ⟨a, x, y, ha, -, -, rfl⟩ := hc
    exact ⟨a, x + y, ha, rfl⟩
  · obtain ⟨a, x, y, ha, -, -, rfl⟩ := hc
    exact ⟨a, x * y, ha, rfl⟩

/-- A completed conditional jump has written the pc only, taken or not. -/
theorem regs_flag_of_jump_or_advance {want : ComparisonFlag} {o : Operand} {s t : State}
    (h : (∃ v, s.flag = want ∧ Reads s o v ∧ t = { s with pc := v }) ∨
      (s.flag ≠ want ∧ t = { s with pc := s.pc + 1 })) :
    t.regs = s.regs ∧ t.flag = s.flag := by
  rcases h with ⟨v, -, -, rfl⟩ | ⟨-, rfl⟩ <;> exact ⟨rfl, rfl⟩

/-- An instruction that changes a register is a MOV, ADD or MUL, and one that changes the flag is a CMP. -/
theorem exec_regs_flag {i : Instr} {s t : State} (h : exec i s = .next t) :
    (t.regs = s.regs ∨ ∃ dst src, WritesRegister i dst src) ∧
    (t.flag = s.flag ∨ ∃ op1 op2, i = .cmp op1 op2) := by
  rcases exec_inv h with ⟨o, k, -, -, rfl⟩ | ⟨n, -, rfl⟩ | hc
  · exact ⟨.inl rfl, .inl rfl⟩
  · exact ⟨.inl rfl, .inl rfl⟩
  · cases i with
    | blank => obtain rfl := hc; exact ⟨.inl rfl, .inl rfl⟩
    | mov dst src =>
      obtain ⟨a, v, -, -, rfl⟩ := hc
      exact ⟨.inr ⟨dst, src, .inl rfl⟩, .inl rfl⟩
    | add dst src =>
      obtain ⟨a, x, y, -, -, -, rfl⟩ := hc
      exact ⟨.inr ⟨dst, src, .inr (.inl rfl)⟩, .inl rfl⟩
    | mul dst src =>
      obtain ⟨a, x, y, -, -, -, rfl⟩ := hc
      exact ⟨.inr ⟨dst, src, .inr (.inr rfl)⟩, .inl rfl⟩
    | cmp op1 op2 =>
      obtain ⟨x, y, -, -, rfl⟩ := hc
      exact ⟨.inl rfl, .inr ⟨op1, op2, rfl⟩⟩
    | jmp o => obtain ⟨v, -, rfl⟩ := hc; exact ⟨.inl rfl, .inl rfl⟩
    | jeq o => exact (regs_flag_of_jump_or_advance hc).imp .inl .inl
    | jgt o => exact (regs_flag_of_jump_or_advance hc).imp .inl .inl
    | jlt o => exact (regs_flag_of_jump_or_advance hc).imp .inl .inl
    | halt => obtain rfl := hc; exact ⟨.inl rfl, .inl rfl⟩

/-- A step keeps the registers and the flag, or it executes an instruction that decodes. -/
theorem step_regs_flag {s t : State} (h : step s = .next t) :
    (t.regs = s.regs ∧ t.flag = s.flag) ∨
      ∃ iw i, Executes s iw ∧ decode iw = .ok i ∧ exec i s.countStep = .next t := by
  rcases step_inv h with ⟨-, rfl⟩ | ⟨-, -, rfl⟩ | ⟨iw, r, -, -, rfl⟩ | hx
  · exact .inl ⟨rfl, rfl⟩
  · exact .inl ⟨rfl, rfl⟩
  · exact .inl ⟨rfl, rfl⟩
  · exact .inr hx

/-- Counting a step changes no location an operand names. -/
@[simp] theorem names_countStep {s : State} {o : Operand} {a : Word} :
    Names s.countStep o a ↔ Names s o a := Iff.rfl

/-- Settles O27: only the completed MOV, ADD and MUL write a register. -/
theorem onlyMovAddMulWriteRegisters : Obligations.OnlyMovAddMulWriteRegisters := by
  intro s t h
  constructor
  · rcases step_regs_flag h with ⟨hregs, -⟩ | ⟨iw, i, hx, hd, he⟩
    · exact .inl hregs
    · refine (exec_regs_flag he).1.imp id ?_
      rintro ⟨dst, src, rfl | rfl | rfl⟩
      · exact ⟨iw, dst, src, hx, .inl hd⟩
      · exact ⟨iw, dst, src, hx, .inr (.inl hd)⟩
      · exact ⟨iw, dst, src, hx, .inr (.inr hd)⟩
  · intro iw dst src hx hd hf
    obtain ⟨i, hi, hd⟩ : ∃ i, WritesRegister i dst src ∧ decode iw = .ok i := by
      rcases hd with hd | hd | hd
      · exact ⟨_, .inl rfl, hd⟩
      · exact ⟨_, .inr (.inl rfl), hd⟩
      · exact ⟨_, .inr (.inr rfl), hd⟩
    rw [step_of_decoded hx hd] at h
    obtain ⟨a, v, ha, hv⟩ := (completes_of_not_faulted h hf).writes_named_register hi
    exact ⟨a, v, names_countStep.mp ha, hv⟩

/-! ### What reads the flag -/

section
variable (f : ComparisonFlag) (s : State)

/-- Reading an operand does not read the flag. -/
@[simp] theorem resolveRead_setFlag (o : Operand) : resolveRead (s.setFlag f) o = resolveRead s o := by
  cases o <;> rfl

/-- Writing a register does not read the flag, and keeps it. -/
theorem regWrite_setFlag (i v : Word) :
    regWrite (s.setFlag f) i v = (regWrite s i v).map (State.setFlag · f) := by
  have hrange : inRange (s.setFlag f) i = inRange s i := rfl
  simp only [regWrite, hrange]
  cases inRange s i <;> rfl

/-- Writing through an operand does not read the flag, and keeps it. -/
@[simp] theorem resolveWrite_setFlag (v : Word) (o : Operand) :
    resolveWrite (s.setFlag f) v o = (resolveWrite s v o).map (State.setFlag · f) := by
  cases o with
  | imm n => rfl
  | reg idx => exact regWrite_setFlag f s idx v
  | ptr idx =>
    have hread : regRead (s.setFlag f) idx = regRead s idx := rfl
    simp only [resolveWrite, hread]
    cases regRead s idx with
    | error r => rfl
    | ok a => exact regWrite_setFlag f s a v

/-- ADD and MUL do not read the flag, and keep it. -/
theorem readModifyWrite_setFlag (g : Word → Word → Word) (dst src : Operand) :
    readModifyWrite g dst src (s.setFlag f) =
      (readModifyWrite g dst src s).map (State.setFlag · f) := by
  simp only [readModifyWrite, resolveRead_setFlag, resolveWrite_setFlag]
  cases resolveRead s dst with
  | error r => rfl
  | ok a =>
    cases resolveRead s src with
    | error r => rfl
    | ok b => simp only [bind, Except.bind]; cases resolveWrite s (g a b) dst <;> rfl

/-- A jump that is taken does not read the flag, and keeps it. -/
theorem takeJump_setFlag (target : Operand) :
    takeJump target (s.setFlag f) = (takeJump target s).map (State.setFlag · f) := by
  simp only [takeJump, resolveRead_setFlag]
  cases resolveRead s target <;> rfl

/-- The fault entry does not read the flag, and keeps it. -/
theorem settle_setFlag {r : Except Raise State} {t : State} (h : settle s r = .next t) :
    settle (s.setFlag f) (r.map (State.setFlag · f)) = .next (t.setFlag f) := by
  cases r <;> obtain rfl := Host.Outcome.next.inj h <;> rfl

/-- MOV does not read the flag, and keeps it. -/
theorem execMov_setFlag {dst src : Operand} {t : State} (h : execMov dst src s = .next t) :
    execMov dst src (s.setFlag f) = .next (t.setFlag f) := by
  rw [← settle_setFlag f s h]
  simp only [execMov, resolveRead_setFlag, resolveWrite_setFlag]
  cases resolveRead s src with
  | error r => rfl
  | ok v => simp only [bind, Except.bind]; cases resolveWrite s v dst <;> rfl

/-- CMP does not read the flag: it ends in the same state where its operands read, and keeps the flag where
one does not. -/
theorem execCmp_setFlag {op1 op2 : Operand} {t : State} (h : execCmp op1 op2 s = .next t) :
    execCmp op1 op2 (s.setFlag f) = .next t ∨
      ((∀ x y, Reads s op1 x → ¬ Reads s op2 y) ∧
        execCmp op1 op2 (s.setFlag f) = .next (t.setFlag f)) := by
  simp only [← resolveRead_eq_ok]
  simp only [execCmp, resolveRead_setFlag] at h ⊢
  cases h1 : resolveRead s op1 with
  | error r =>
    rw [h1] at h
    exact .inr ⟨nofun, settle_setFlag f s h⟩
  | ok x =>
    cases h2 : resolveRead s op2 with
    | error r =>
      rw [h1, h2] at h
      exact .inr ⟨nofun, settle_setFlag f s h⟩
    | ok y =>
      rw [h1, h2] at h
      exact .inl h

/-- An instruction that is neither a CMP nor a conditional jump does not read the flag, and keeps it. -/
theorem exec_setFlag {i : Instr} {t : State} (hj : ∀ o, i ≠ .jeq o ∧ i ≠ .jgt o ∧ i ≠ .jlt o)
    (hcmp : ∀ op1 op2, i ≠ .cmp op1 op2) (h : exec i s = .next t) :
    exec i (s.setFlag f) = .next (t.setFlag f) := by
  cases i with
  | blank => obtain rfl := Host.Outcome.next.inj h; rfl
  | mov dst src => exact execMov_setFlag f s h
  | add dst src => exact (congrArg _ (readModifyWrite_setFlag f s _ dst src)).trans (settle_setFlag f s h)
  | mul dst src => exact (congrArg _ (readModifyWrite_setFlag f s _ dst src)).trans (settle_setFlag f s h)
  | cmp op1 op2 => exact absurd rfl (hcmp op1 op2)
  | jmp o => exact (congrArg _ (takeJump_setFlag f s o)).trans (settle_setFlag f s h)
  | jeq o => exact absurd rfl (hj o).1
  | jgt o => exact absurd rfl (hj o).2.1
  | jlt o => exact absurd rfl (hj o).2.2
  | halt => obtain rfl := Host.Outcome.next.inj h; rfl

end

/-- Settles O28: CMP alone sets the flag, and what the other instructions but the conditional jumps do
commutes with replacing it. -/
theorem flagIsSetByCmpAndReadByConditionalJumps : Obligations.FlagIsSetByCmpAndReadByConditionalJumps := by
  refine ⟨fun s t h hne => ?_, fun i s t f hj h => ?_, fun l s h => ?_⟩
  · rcases step_regs_flag h with ⟨-, hflag⟩ | ⟨iw, i, hx, hd, he⟩
    · exact absurd hflag hne
    · obtain ⟨op1, op2, rfl⟩ := (exec_regs_flag he).2.resolve_left hne
      exact ⟨iw, op1, op2, hx, hd⟩
  · by_cases hcmp : ∃ op1 op2, i = .cmp op1 op2
    · obtain ⟨op1, op2, rfl⟩ := hcmp
      rcases execCmp_setFlag f s h with h' | ⟨hr, h'⟩
      · exact ⟨t, h', rfl, fun _ _ _ _ _ _ _ => rfl, fun hn => absurd rfl (hn op1 op2)⟩
      · refine ⟨t.setFlag f, h', rfl, fun _ _ x y e hx hy => ?_, fun hn => absurd rfl (hn op1 op2)⟩
        obtain ⟨rfl, rfl⟩ := Instr.cmp.inj e
        exact absurd hy (hr x y hx)
    · have hn : ∀ op1 op2, i ≠ .cmp op1 op2 := fun op1 op2 e => hcmp ⟨op1, op2, e⟩
      exact ⟨t.setFlag f, exec_setFlag f s hj hn h, rfl, fun op1 op2 _ _ e => absurd e (hn op1 op2),
        fun _ => ⟨rfl, (exec_regs_flag h).2.resolve_right hcmp⟩⟩
  · obtain ⟨-, rfl⟩ := launch_inv h
    rfl

/-! ### What no step changes -/

/-- Settles O29: a step keeps the store, the budget and the number of registers. -/
theorem runParametersNeverChange : Obligations.RunParametersNeverChange := by
  intro s t h
  rcases step_inv h with ⟨-, rfl⟩ | ⟨-, -, rfl⟩ | ⟨iw, r, -, -, rfl⟩ | ⟨iw, i, -, -, he⟩
  · exact ⟨rfl, rfl, rfl, rfl⟩
  · exact ⟨rfl, rfl, rfl, rfl⟩
  · exact ⟨rfl, rfl, rfl, rfl⟩
  · obtain ⟨hmem, hbudget, hregs, -⟩ := exec_keeps_parameters he
    exact ⟨hmem, congrArg List.length hmem, hbudget, hregs⟩

/-! ### The step counter -/

/-- A step that executes a word counts itself, whether the word decodes or not. -/
theorem steps_of_executes {s t : State} {iw : IWord} (hx : Executes s iw) (h : step s = .next t) :
    t.steps = s.steps + 1 := by
  cases hd : decode iw with
  | error r =>
    rw [step_of_malformed hx hd] at h
    obtain rfl := Host.Outcome.next.inj h
    rfl
  | ok i =>
    rw [step_of_decoded hx hd] at h
    obtain ⟨-, -, -, hsteps⟩ := exec_keeps_parameters h
    exact hsteps

/-- Settles O30: a step that passes the termination test adds one, every other step keeps the counter. -/
theorem stepsAreCounted : Obligations.StepsAreCounted := by
  refine ⟨fun l s h => ?_, fun s t h => ⟨fun hr hp hb => ?_, fun hstop => ?_⟩⟩
  · obtain ⟨-, rfl⟩ := launch_inv h
    rfl
  · obtain ⟨iw, hf⟩ := fetches_of_inside hp
    have hsteps : t.steps = s.steps + 1 := steps_of_executes ⟨hr, hb, hf⟩ h
    refine ⟨hsteps, fun hle => ?_⟩
    have hlt : s.steps.toNat < s.budget.toNat :=
      lt_of_le_of_ne hle fun e => hb (BitVec.eq_of_toNat_eq e)
    obtain ⟨-, -, hbudget, -⟩ := runParametersNeverChange s t h
    rw [hsteps, hbudget, steps_succ_toNat hlt]
    exact ⟨rfl, hlt⟩
  · by_cases hr : s.status = .running
    · have ht : PcOutside s ∨ s.steps = s.budget := hstop.resolve_left fun he => he hr
      rw [step_of_terminating hr ht] at h
      obtain rfl := Host.Outcome.next.inj h
      rfl
    · rw [step_of_ended hr] at h
      obtain rfl := Host.Outcome.next.inj h
      rfl

end Sys2Proof.Machine
end

section
/-!
PROOF. The encoding (spec/30_encoding.md R77, R79 to R82, R91). The decoder is said once on the fields as
numbers: by opcode number and operand count (`decode_of_unknown_opcode`, `decode_of_wrong_count`), and for the
words that pass both tests by their arity (`decode_of_arity_zero`, `_one`, `_two`). The encoder is said once on
the list of operands.
-/

namespace Sys2Proof.Machine

/-! ### The numbers of a word are those of its fields -/

theorem opNumber_eq (iw : IWord) : opNumber iw = (opField iw).toNat := (opField_toNat iw).symm
theorem cntNumber_eq (iw : IWord) : cntNumber iw = (cntField iw).toNat := (cntField_toNat iw).symm
theorem m1Number_eq (iw : IWord) : m1Number iw = (m1Field iw).toNat := (m1Field_toNat iw).symm
theorem m2Number_eq (iw : IWord) : m2Number iw = (m2Field iw).toNat := (m2Field_toNat iw).symm
theorem v1Number_eq (iw : IWord) : v1Number iw = (v1Field iw).toNat := (v1Field_toNat iw).symm
theorem v2Number_eq (iw : IWord) : v2Number iw = (v2Field iw).toNat := (v2Field_toNat iw).symm

/-! ### Opcodes and opcode numbers -/

/-- The arity column of spec/30_encoding.md R74 is the arity of the opcode. -/
@[simp] theorem arityOfNumber_opcodeNumber (op : Opcode) :
    arityOfNumber (opcodeNumber op).toNat = arity op := by
  cases op <;> rfl

theorem arityOfNumber_cases (n : Nat) :
    arityOfNumber n = 0 ∨ arityOfNumber n = 1 ∨ arityOfNumber n = 2 := by
  by_cases hn : n < 10
  · interval_cases n <;> decide
  · left
    exact List.getD_eq_default _ _ (not_lt.mp hn)

/-- The numbers 10 and up name no opcode (spec/30_encoding.md R81). -/
theorem opcodeOfNumber_of_ten_le {n : Nat} (h : 10 ≤ n) : opcodeOfNumber n = none := by
  obtain ⟨k, rfl⟩ := Nat.exists_eq_add_of_le' h
  rfl

/-- The numbers 0 to 9 name an opcode (spec/30_encoding.md R74). -/
theorem exists_opcodeOfNumber_of_le_nine {n : Nat} (h : n ≤ 9) : ∃ op, opcodeOfNumber n = some op := by
  interval_cases n <;> exact ⟨_, rfl⟩

/-! ### The decoder on the fields as numbers -/

/-- The opcode test comes first (spec/30_encoding.md R78, R81). -/
theorem decode_of_unknown_opcode {iw : IWord} (h : 10 ≤ opNumber iw) :
    decode iw = .error ⟨.unknownOpcode, BitVec.ofNat Config.xlen (opNumber iw)⟩ := by
  rw [opNumber_eq] at h ⊢
  rw [decode, opcodeOfNumber_of_ten_le h, BitVec.ofNat_toNat]

/-- Below 10 the word has an opcode, and the operand count decides (spec/30_encoding.md R78, R82). -/
theorem decode_of_known_opcode {iw : IWord} (h : opNumber iw ≤ 9) :
    ∃ op, opNumber iw = (opcodeNumber op).toNat ∧
      decode iw = if cntNumber iw = arityOfNumber (opNumber iw) then decodeForm op iw
        else .error ⟨.arityMismatch, BitVec.ofNat Config.xlen (cntNumber iw)⟩ := by
  rw [opNumber_eq] at h
  obtain ⟨op, hop⟩ := exists_opcodeOfNumber_of_le_nine h
  have hn : opNumber iw = (opcodeNumber op).toNat := by
    rw [opNumber_eq, opcodeNumber_of_opcodeOfNumber hop]
  refine ⟨op, hn, ?_⟩
  rw [hn, arityOfNumber_opcodeNumber, cntNumber_eq, decode, hop, BitVec.ofNat_toNat]

/-- An operand count that is not the arity (spec/30_encoding.md R82). -/
theorem decode_of_wrong_count {iw : IWord} (h : opNumber iw ≤ 9)
    (hc : cntNumber iw ≠ arityOfNumber (opNumber iw)) :
    decode iw = .error ⟨.arityMismatch, BitVec.ofNat Config.xlen (cntNumber iw)⟩ := by
  obtain ⟨op, -, hd⟩ := decode_of_known_opcode h
  rw [hd, if_neg hc]

/-- Mode 3 is no operand; every other mode number is one, over the zero-extended value field
(spec/30_encoding.md R76, R77). -/
theorem decodeOperand_eq (m : BitVec 2) (v : ValueField) :
    decodeOperand m v = if m.toNat = 3 then none else some (operandOfNumbers m.toNat v.toNat) := by
  rcases decodeOperand_cases m v with ⟨hm, hd⟩ | ⟨hm, hd⟩ | ⟨hm, hd⟩ | ⟨hm, hd⟩ <;>
    simp [hd, hm, operandOfNumbers]

theorem decodeOne_eq (iw : IWord) (mk : Operand → Instr) :
    decodeOne iw mk = if m1Number iw = 3 then .error ⟨.invalidOperandFormat, 1⟩
      else .ok (mk (operandOfNumbers (m1Number iw) (v1Number iw))) := by
  rw [decodeOne, decodeOperand_eq, ← m1Number_eq, ← v1Number_eq]
  by_cases h1 : m1Number iw = 3 <;> simp [h1]

theorem decodeTwo_eq (iw : IWord) (mk : Operand → Operand → Instr) :
    decodeTwo iw mk = if m1Number iw = 3 then .error ⟨.invalidOperandFormat, 1⟩
      else if m2Number iw = 3 then .error ⟨.invalidOperandFormat, 2⟩
      else .ok (mk (operandOfNumbers (m1Number iw) (v1Number iw))
        (operandOfNumbers (m2Number iw) (v2Number iw))) := by
  rw [decodeTwo, decodeOperand_eq, decodeOperand_eq, ← m1Number_eq, ← v1Number_eq, ← m2Number_eq,
    ← v2Number_eq]
  by_cases h1 : m1Number iw = 3 <;> by_cases h2 : m2Number iw = 3 <;> simp [h1, h2]

section
variable {iw : IWord} (h9 : opNumber iw ≤ 9) (hc : cntNumber iw = arityOfNumber (opNumber iw))
include h9 hc

/-- No slot is used: the word decodes whatever its operand fields hold. -/
theorem decode_of_arity_zero (ha : arityOfNumber (opNumber iw) = 0) (o1 o2 : Operand) :
    decode iw = .ok (instrOfNumber (opNumber iw) o1 o2) := by
  obtain ⟨op, hn, hd⟩ := decode_of_known_opcode h9
  rw [hd, if_pos hc, hn]
  rw [hn, arityOfNumber_opcodeNumber] at ha
  cases op with
  | blank | halt => rfl
  | _ => cases ha

/-- Slot 1 is used, slot 2 is ignored. -/
theorem decode_of_arity_one (ha : arityOfNumber (opNumber iw) = 1) (o2 : Operand) :
    decode iw = if m1Number iw = 3 then .error ⟨.invalidOperandFormat, 1⟩
      else .ok (instrOfNumber (opNumber iw) (operandOfNumbers (m1Number iw) (v1Number iw)) o2) := by
  obtain ⟨op, hn, hd⟩ := decode_of_known_opcode h9
  rw [hd, if_pos hc, hn]
  rw [hn, arityOfNumber_opcodeNumber] at ha
  cases op with
  | jmp | jeq | jgt | jlt => exact decodeOne_eq iw _
  | _ => cases ha

/-- Both slots are used, slot 1 is tested before slot 2. -/
theorem decode_of_arity_two (ha : arityOfNumber (opNumber iw) = 2) :
    decode iw = if m1Number iw = 3 then .error ⟨.invalidOperandFormat, 1⟩
      else if m2Number iw = 3 then .error ⟨.invalidOperandFormat, 2⟩
      else .ok (instrOfNumber (opNumber iw) (operandOfNumbers (m1Number iw) (v1Number iw))
        (operandOfNumbers (m2Number iw) (v2Number iw))) := by
  obtain ⟨op, hn, hd⟩ := decode_of_known_opcode h9
  rw [hd, if_pos hc, hn]
  rw [hn, arityOfNumber_opcodeNumber] at ha
  cases op with
  | mov | add | mul | cmp => exact decodeTwo_eq iw _
  | _ => cases ha

end

/-! ### The encoder on the list of operands -/

/-- An instruction carries as many operands as its opcode's arity (spec/30_encoding.md R71). -/
theorem operands_length (i : Instr) : i.operands.length = arity (opcodeOf i) := by
  cases i <;> rfl

theorem arity_le_two (op : Opcode) : arity op ≤ 2 := by
  cases op <;> decide

/-- The mode number and the value field of an operand that has an encoding are its numbers. -/
theorem operandNumbers_of_wf {o : Operand} (h : o.wf = true) :
    operandNumbers o = ((slotMode (some o)).toNat, (slotValue (some o)).toNat) := by
  have hv : (o.value.setWidth Config.immW).toNat = o.value.toNat := by
    rw [BitVec.toNat_setWidth, Nat.mod_eq_of_lt (Operand.wf_iff.mp h)]
  simp only [slotMode, slotValue, hv]
  cases o <;> rfl

/-- The word packed from a list of operands has the number of R91. -/
theorem packFields_operands_toNat (op : BitVec 4) {l : List Operand} (hl : l.length ≤ 2)
    (hwf : ∀ o ∈ l, o.wf = true) :
    (packFields op (BitVec.ofNat 2 l.length) (slotMode l[0]?) (slotMode l[1]?) (slotValue l[0]?)
      (slotValue l[1]?)).toNat = numberOfFields op.toNat l := by
  rw [packFields_toNat]
  match l with
  | [] => simp [numberOfFields, slotMode, slotValue]
  | [o1] =>
    have h1 := operandNumbers_of_wf (hwf o1 (by simp))
    simp [numberOfFields, h1, slotMode, slotValue]
  | [o1, o2] =>
    have h1 := operandNumbers_of_wf (hwf o1 (by simp))
    have h2 := operandNumbers_of_wf (hwf o2 (by simp))
    simp [numberOfFields, h1, h2]
  | _ :: _ :: _ :: _ => simp at hl

theorem instr_wf_iff {i : Instr} : i.wf = true ↔ ∀ o ∈ i.operands, o.wf = true := List.all_eq_true

theorem wordNumber_eq (i : Instr) :
    wordNumber i = numberOfFields (opcodeNumber (opcodeOf i)).toNat i.operands := by
  cases i <;> rfl

/-- The canonical word is the number that R91 gives. -/
theorem encodeWord_toNat {i : Instr} (h : i.wf = true) : (encodeWord i).toNat = wordNumber i := by
  have hl : i.operands.length ≤ 2 := operands_length i ▸ arity_le_two _
  rw [encodeWord, wordNumber_eq, ← operands_length, packFields_operands_toNat _ hl (instr_wf_iff.mp h)]

theorem encode_eq_some {i : Instr} {iw : IWord} :
    encode i = some iw ↔ i.wf = true ∧ encodeWord i = iw := by
  unfold encode
  cases i.wf <;> simp

/-! ### Decoding a canonical word -/

section
variable (op : BitVec 4) (cnt : BitVec 2)

/-- A word whose slot 1 is packed from an operand decodes to that operand. -/
theorem decodeOne_packFields {o : Operand} (h : [o].all Operand.wf = true) (m2 : BitVec 2) (v2 : ValueField)
    (mk : Operand → Instr) :
    decodeOne (packFields op cnt (slotMode (some o)) m2 (slotValue (some o)) v2) mk = .ok (mk o) := by
  have ho : o.wf = true := by simpa using h
  rw [decodeOne, m1Field_packFields, v1Field_packFields]
  simp only [slotMode, slotValue, decodeOperand_encoded ho]

/-- A word whose slots are packed from two operands decodes to those operands. -/
theorem decodeTwo_packFields {o1 o2 : Operand} (h : [o1, o2].all Operand.wf = true)
    (mk : Operand → Operand → Instr) :
    decodeTwo (packFields op cnt (slotMode (some o1)) (slotMode (some o2)) (slotValue (some o1))
      (slotValue (some o2))) mk = .ok (mk o1 o2) := by
  obtain ⟨h1, h2⟩ : o1.wf = true ∧ o2.wf = true := by simpa using h
  rw [decodeTwo, m1Field_packFields, v1Field_packFields, m2Field_packFields, v2Field_packFields]
  simp only [slotMode, slotValue, decodeOperand_encoded h1, decodeOperand_encoded h2]

end

@[simp] theorem opField_encodeWord (i : Instr) : opField (encodeWord i) = opcodeNumber (opcodeOf i) :=
  opField_packFields _ _ _ _ _ _

@[simp] theorem cntField_encodeWord_toNat (i : Instr) :
    (cntField (encodeWord i)).toNat = arity (opcodeOf i) := by
  rw [encodeWord, cntField_packFields, BitVec.toNat_ofNat]
  have := arity_le_two (opcodeOf i)
  omega

/-- The operands of an instruction with an encoding come back from its canonical word. -/
theorem decodeForm_encodeWord {i : Instr} (h : i.wf = true) :
    decodeForm (opcodeOf i) (encodeWord i) = .ok i := by
  cases i with
  | blank | halt => rfl
  | mov | add | mul | cmp => exact decodeTwo_packFields _ _ h _
  | jmp | jeq | jgt | jlt => exact decodeOne_packFields _ _ h _ _ _

/-- Decoding is a left inverse of encoding (spec/30_encoding.md R91). -/
theorem decode_encodeWord {i : Instr} (h : i.wf = true) : decode (encodeWord i) = .ok i :=
  decode_eq_ok.mpr ⟨opcodeOf i, by simp, by simp, decodeForm_encodeWord h⟩

/-- Settles O1: the canonical word has the number of R91 and decodes to its instruction. -/
theorem decodeInvertsEncode : Obligations.DecodeInvertsEncode := by
  intro i h
  exact ⟨encodeWord i, encode_eq_some.mpr ⟨h, rfl⟩, encodeWord_toNat h, decode_encodeWord h⟩

/-! ### Illegal words -/

/-- A word the decoder rejects faults in every step that executes it. -/
theorem faultsWhenExecuted_of_decode {iw : IWord} {k : FaultKind} {info : Word}
    (h : decode iw = .error ⟨k, info⟩) : FaultsWhenExecuted iw k info :=
  ⟨h, fun _ hx => step_of_malformed hx h⟩

/-- Settles O4: opcode, count, slot 1 and slot 2 are tested in this order. -/
theorem illegalWordsFault : Obligations.IllegalWordsFault := by
  refine fun iw => ⟨fun h10 => ?_, fun h9 hc => ?_, fun h9 hc ha h1 => ?_, fun h9 hc ha h1 h2 => ?_⟩ <;>
    apply faultsWhenExecuted_of_decode
  · exact decode_of_unknown_opcode h10
  · exact decode_of_wrong_count h9 hc
  · rcases arityOfNumber_cases (opNumber iw) with h | h | h
    · omega
    · rw [decode_of_arity_one h9 hc h (.imm 0), if_pos h1]
    · rw [decode_of_arity_two h9 hc h, if_pos h1]
  · rw [decode_of_arity_two h9 hc ha, if_neg h1, if_pos h2]

/-! ### Legal words -/

/-- A decoded operand is between 0 and `2^IMM_W - 1` as a signed number (spec/30_encoding.md R77). -/
theorem Operand.toInt_bounds_of_wf {o : Operand} (h : o.wf = true) :
    0 ≤ o.value.toInt ∧ o.value.toInt ≤ 2 ^ Config.immW - 1 := by
  have hlt : (o.value.toNat : Int) < 2 ^ Config.immW := by exact_mod_cast Operand.wf_iff.mp h
  rw [Operand.toInt_of_wf h]
  exact ⟨Int.natCast_nonneg _, Int.le_sub_one_of_lt hlt⟩

/-- Settles O5: by the arity of the opcode number, no slot that is used being malformed. -/
theorem legalWordsDecode : Obligations.LegalWordsDecode := by
  intro iw h9 hc h1 h2
  have hd : decode iw = .ok (instrOfNumber (opNumber iw) (operandOfNumbers (m1Number iw) (v1Number iw))
      (operandOfNumbers (m2Number iw) (v2Number iw))) := by
    rcases arityOfNumber_cases (opNumber iw) with ha | ha | ha
    · exact decode_of_arity_zero h9 hc ha _ _
    · rw [decode_of_arity_one h9 hc ha, if_neg (h1 ha.ge)]
    · rw [decode_of_arity_two h9 hc ha, if_neg (h1 (by omega)), if_neg (h2 ha)]
  exact ⟨_, hd, rfl, fun o ho => Operand.toInt_bounds_of_wf (instr_wf_iff.mp (decode_wf hd) o ho)⟩

/-! ### Ignored fields -/

/-- The decoder reads the opcode, the count and the fields of the used slots, nothing else
(spec/30_encoding.md R80). -/
theorem decode_congr {iw iw' : IWord} (hop : opNumber iw = opNumber iw')
    (hcnt : cntNumber iw = cntNumber iw')
    (h1 : 1 ≤ arityOfNumber (opNumber iw) → m1Number iw = m1Number iw' ∧ v1Number iw = v1Number iw')
    (h2 : arityOfNumber (opNumber iw) = 2 → m2Number iw = m2Number iw' ∧ v2Number iw = v2Number iw') :
    decode iw = decode iw' := by
  by_cases h9 : opNumber iw ≤ 9
  · have h9' : opNumber iw' ≤ 9 := hop ▸ h9
    by_cases hc : cntNumber iw = arityOfNumber (opNumber iw)
    · have hc' : cntNumber iw' = arityOfNumber (opNumber iw') := hop ▸ hcnt ▸ hc
      rcases arityOfNumber_cases (opNumber iw) with ha | ha | ha
      · rw [decode_of_arity_zero h9 hc ha (.imm 0) (.imm 0),
          decode_of_arity_zero h9' hc' (hop ▸ ha) (.imm 0) (.imm 0), hop]
      · obtain ⟨hm1, hv1⟩ := h1 ha.ge
        rw [decode_of_arity_one h9 hc ha (.imm 0),
          decode_of_arity_one h9' hc' (hop ▸ ha) (.imm 0), hop, hm1, hv1]
      · obtain ⟨hm1, hv1⟩ := h1 (by omega)
        obtain ⟨hm2, hv2⟩ := h2 ha
        rw [decode_of_arity_two h9 hc ha, decode_of_arity_two h9' hc' (hop ▸ ha), hop, hm1, hv1, hm2,
          hv2]
    · rw [decode_of_wrong_count h9 hc, decode_of_wrong_count h9' (hop ▸ hcnt ▸ hc), hcnt]
  · have h10 : 10 ≤ opNumber iw := Nat.lt_of_not_le h9
    rw [decode_of_unknown_opcode h10, decode_of_unknown_opcode (hop ▸ h10), hop]

/-- The opcode number of a canonical word gives its number of operands. -/
theorem arityOfNumber_opNumber_encodeWord (i : Instr) :
    arityOfNumber (opNumber (encodeWord i)) = i.operands.length := by
  rw [opNumber_eq, opField_encodeWord, arityOfNumber_opcodeNumber, operands_length]

/-- A canonical word has zeros in slot 1 where no operand is there. -/
theorem slot1_encodeWord {i : Instr} (h : i.operands.length ≤ 0) :
    m1Number (encodeWord i) = 0 ∧ v1Number (encodeWord i) = 0 := by
  rw [m1Number_eq, v1Number_eq, encodeWord, m1Field_packFields, v1Field_packFields,
    List.getElem?_eq_none h]
  exact ⟨rfl, rfl⟩

/-- A canonical word has zeros in slot 2 where no operand is there. -/
theorem slot2_encodeWord {i : Instr} (h : i.operands.length ≤ 1) :
    m2Number (encodeWord i) = 0 ∧ v2Number (encodeWord i) = 0 := by
  rw [m2Number_eq, v2Number_eq, encodeWord, m2Field_packFields, v2Field_packFields,
    List.getElem?_eq_none h]
  exact ⟨rfl, rfl⟩

/-- Settles O6; the words 0 and 64 (mode 1 in the ignored slot 1) are both blank. -/
theorem unusedFieldsAreIgnored : Obligations.UnusedFieldsAreIgnored := by
  refine ⟨fun _ _ => decode_congr, ⟨0, 64, .blank, by decide, rfl, rfl⟩, fun i iw h => ?_⟩
  obtain ⟨-, rfl⟩ := encode_eq_some.mp h
  rw [arityOfNumber_opNumber_encodeWord]
  exact ⟨slot2_encodeWord, fun hl => slot1_encodeWord hl.le⟩

/-! ### The blank instruction -/

/-- The blank words have opcode number 0 and operand count 0 (spec/30_encoding.md R79). -/
theorem decode_eq_blank {iw : IWord} :
    decode iw = .ok .blank ↔ opNumber iw = 0 ∧ cntNumber iw = 0 := by
  constructor
  · intro h
    obtain ⟨op, hop, hcnt, hform⟩ := decode_eq_ok.mp h
    obtain rfl : .blank = op := decodeForm_opcode hform
    rw [opNumber_eq, cntNumber_eq, ← opcodeNumber_of_opcodeOfNumber hop, hcnt]
    exact ⟨rfl, rfl⟩
  · rintro ⟨hop, hcnt⟩
    have ha : arityOfNumber (opNumber iw) = 0 := by rw [hop]; rfl
    rw [decode_of_arity_zero (by omega) (hcnt.trans ha.symm) ha (.imm 0) (.imm 0), hop]
    rfl

/-- Settles O7: the low six bits are the opcode number and the operand count. -/
theorem blankWords : Obligations.BlankWords := by
  refine ⟨fun iw => ?_, by decide, fun iw hop hcnt => ?_⟩
  · rw [decode_eq_blank, opNumber, cntNumber]
    omega
  · have ha : arityOfNumber (opNumber iw) = 0 := by rw [hop]; rfl
    exact faultsWhenExecuted_of_decode (decode_of_wrong_count (by omega) (ha ▸ hcnt))

end Sys2Proof.Machine
end

section
/-!
PROOF. The register file and the operand resolver (spec/40_register_file_and_operands.md R100, R101, R103,
R104, R108). Each statement puts together what the laws of the operands say an access answers on a register
that exists, on an index outside `[0, N)` and on an immediate destination.
-/

namespace Sys2Proof.Machine

/-! ### Registers -/

/-- Settles O10: an index is in range or outside, and the read answers by which of the two it is. -/
theorem registerRead : Obligations.RegisterRead := by
  refine fun s i => ⟨fun v hv => ?_, fun hout => ?_, holds_or_outOfBounds s i⟩
  · exact regRead_eq_ok.mpr hv
  · exact regRead_eq_error.mpr ⟨hout, rfl⟩

/-- Settles O11: the register written holds the value, and no other register is touched. -/
theorem registerWrite : Obligations.RegisterWrite := by
  refine fun s i v => ⟨fun w hw => ?_, fun hout => ?_⟩
  · exact ⟨_, regWrite_eq_ok.mpr ⟨⟨w, hw⟩, rfl⟩, rfl, holds_set_self v hw,
      fun _ u hj => holds_set_other hj u⟩
  · exact regWrite_eq_error.mpr ⟨hout, rfl⟩

/-! ### Operands -/

/-- Settles O12: an operand reads or meets an index outside `[0, N)`, in each addressing mode. -/
theorem operandRead : Obligations.OperandRead :=
  fun _ _ => ⟨fun _ => resolveRead_of_reads, fun _ => resolveRead_of_unresolvable⟩

/-- An immediate is never a write target (spec/40_register_file_and_operands.md R104). -/
theorem resolveWrite_imm (s : State) (v n : Word) :
    resolveWrite s v (.imm n) = .error (targetFault n) :=
  resolveWrite_eq_error.mpr (.inl ⟨n, rfl, rfl⟩)

/-- Settles O13: an operand is immediate, names a register or meets an index outside `[0, N)`. -/
theorem operandWrite : Obligations.OperandWrite := by
  refine fun s o v => ⟨fun n hn => ?_, fun a ha => ?_, fun k hk => ?_⟩
  · exact hn ▸ resolveWrite_imm s v n
  · exact resolveWrite_of_names v ha
  · exact resolveWrite_of_unresolvable v hk

/-- Settles O15: what was read is the content of the register the operand names, and a write through
the operand goes to the register it names. -/
theorem destinationResolvesTwiceAlike : Obligations.DestinationResolvesTwiceAlike := by
  intro s o v hni hread
  rcases names_of_reads (resolveRead_eq_ok.mp hread) with ⟨n, hn⟩ | ⟨a, ha, hv⟩
  · exact absurd hn (hni n)
  · exact ⟨a, ha, hv, fun w => resolveWrite_of_names w ha⟩

end Sys2Proof.Machine
end

section
/-!
PROOF. The data instructions (spec/41_alu_data.md R121 to R127). Each meaning is evaluated once on operands that
read, on an index outside `[0, N)` and on an immediate destination; ADD and MUL share theirs. The arithmetic
is what the sum and the product keep of the numbers and of the signed values.
-/

namespace Sys2Proof.Machine

open Sys2Proof.Laws (tableMatch)

/-! ### The low six bits of a word -/

/-- A row of the opcode table is its opcode number with the operand count above it (spec/30_encoding.md R84). -/
theorem tableMatch_eq (i : Instr) :
    tableMatch i = (opcodeNumber (opcodeOf i)).toNat + 16 * arity (opcodeOf i) := by
  cases i <;> rfl

/-- A word that decodes matches the row of its instruction, canonical or not (spec/30_encoding.md R84). -/
theorem low_bits_of_decode {iw : IWord} {i : Instr} (h : decode iw = .ok i) :
    iw.toNat % 64 = tableMatch i := by
  obtain ⟨op, hop, hcnt, hform⟩ := decode_eq_ok.mp h
  rw [tableMatch_eq, decodeForm_opcode hform, ← hcnt, opcodeNumber_of_opcodeOfNumber hop, opField_toNat,
    cntField_toNat]
  omega

/-! ### Arithmetic -/

/-- What is kept of an integer is congruent to it modulo `2^XLEN` (spec/00_scope.md R11). -/
theorem two_pow_xlen_dvd_wrapAt_sub (c : Config.Params) (n : Int) : (2 : Int) ^ c.xlen ∣ wrapAt c n - n := by
  have h := Int.dvd_bmod_sub_self (x := n) (m := 2 ^ c.xlen)
  push_cast at h
  exact h

/-- The sum is the sum of the signed values modulo `2^XLEN` (spec/41_alu_data.md R125). -/
theorem two_pow_xlen_dvd_add (x y : Word) :
    (2 : Int) ^ Config.xlen ∣ (x + y).toInt - (x.toInt + y.toInt) :=
  wrapAt_add x y ▸ two_pow_xlen_dvd_wrapAt_sub Config.params _

/-- The product is the product of the signed values modulo `2^XLEN` (spec/41_alu_data.md R126). -/
theorem two_pow_xlen_dvd_mul (x y : Word) :
    (2 : Int) ^ Config.xlen ∣ (x * y).toInt - x.toInt * y.toInt :=
  wrapAt_mul x y ▸ two_pow_xlen_dvd_wrapAt_sub Config.params _

/-! ### MOV -/

section
variable {s : State} {dst src : Operand}

theorem execMov_of_names {a v : Word} (hd : Names s dst a) (hr : Reads s src v) :
    execMov dst src s = .next { s with regs := s.regs.set a.toNat v, pc := s.pc + 1 } := by
  simp only [execMov, resolveRead_of_reads hr, resolveWrite_of_names v hd, bind, Except.bind, settle_ok,
    State.advance]

theorem execMov_of_src_unresolvable {k : Word} (hk : Unresolvable s src k) :
    execMov dst src s = .next (faultEntry (rangeFault k) s) := by
  simp only [execMov, resolveRead_of_unresolvable hk, bind, Except.bind, settle_error]

/-- The source has been read when the destination fails. -/
theorem execMov_of_write_error {v : Word} {r : Raise} (hr : Reads s src v)
    (hw : resolveWrite s v dst = .error r) : execMov dst src s = .next (faultEntry r s) := by
  simp only [execMov, resolveRead_of_reads hr, hw, bind, Except.bind, settle_error]

end

/-- Settles O16: the source is read first, then the destination is written or fails. -/
theorem movCopiesSourceToDestination : Obligations.MovCopiesSourceToDestination := by
  refine ⟨fun _ _ _ => low_bits_of_decode, fun s dst src =>
    ⟨fun a v hd hr => ?_, fun k hk => ?_, fun n v hn hr => ?_, fun k v hk hr => ?_⟩⟩
  · exact execMov_of_names hd hr
  · exact execMov_of_src_unresolvable hk
  · exact execMov_of_write_error hr (hn ▸ resolveWrite_imm s v n)
  · exact execMov_of_write_error hr (resolveWrite_of_unresolvable v hk)

/-! ### ADD and MUL -/

section
variable (f : Word → Word → Word) {s : State} {dst src : Operand}

theorem readModifyWrite_of_names {a x y : Word} (hd : Names s dst a) (hx : Holds s a x)
    (hr : Reads s src y) :
    settle s (readModifyWrite f dst src s) =
      .next { s with regs := s.regs.set a.toNat (f x y), pc := s.pc + 1 } := by
  simp only [readModifyWrite, resolveRead_of_reads (reads_of_names hd hx), resolveRead_of_reads hr,
    resolveWrite_of_names _ hd, bind, Except.bind, settle_ok, State.advance]

theorem readModifyWrite_of_dst_unresolvable {k : Word} (hk : Unresolvable s dst k) :
    settle s (readModifyWrite f dst src s) = .next (faultEntry (rangeFault k) s) := by
  simp only [readModifyWrite, resolveRead_of_unresolvable hk, bind, Except.bind, settle_error]

theorem readModifyWrite_of_src_unresolvable {k x : Word} (hd : Reads s dst x)
    (hk : Unresolvable s src k) :
    settle s (readModifyWrite f dst src s) = .next (faultEntry (rangeFault k) s) := by
  simp only [readModifyWrite, resolveRead_of_reads hd, resolveRead_of_unresolvable hk, bind, Except.bind,
    settle_error]

/-- An immediate destination is read as its literal, and fails at the write. -/
theorem readModifyWrite_of_imm {n y : Word} (hr : Reads s src y) :
    settle s (readModifyWrite f (.imm n) src s) = .next (faultEntry (targetFault n) s) := by
  have hd : Reads s (.imm n) n := rfl
  simp only [readModifyWrite, resolveRead_of_reads hd, resolveRead_of_reads hr, resolveWrite_imm, bind,
    Except.bind, settle_error]

end

/-- Settles O17: the word written is `x + y`. -/
theorem addWrapsIntoDestination : Obligations.AddWrapsIntoDestination := by
  refine ⟨fun _ _ _ => low_bits_of_decode, fun s dst src =>
    ⟨fun a x y hd hx hr => ⟨x + y, BitVec.toNat_add x y, two_pow_xlen_dvd_add x y, ?_⟩, fun k hk => ?_,
      fun k x hd hk => ?_, fun n y hn hr => ?_⟩⟩
  · exact readModifyWrite_of_names _ hd hx hr
  · exact readModifyWrite_of_dst_unresolvable _ hk
  · exact readModifyWrite_of_src_unresolvable _ hd hk
  · exact hn ▸ readModifyWrite_of_imm _ hr

/-- Settles O18: the word written is `x * y`. -/
theorem mulKeepsLowBitsInDestination : Obligations.MulKeepsLowBitsInDestination := by
  refine ⟨fun _ _ _ => low_bits_of_decode, fun s dst src =>
    ⟨fun a x y hd hx hr => ⟨x * y, BitVec.toNat_mul x y, two_pow_xlen_dvd_mul x y, ?_⟩, fun k hk => ?_,
      fun k x hd hk => ?_, fun n y hn hr => ?_⟩⟩
  · exact readModifyWrite_of_names _ hd hx hr
  · exact readModifyWrite_of_dst_unresolvable _ hk
  · exact readModifyWrite_of_src_unresolvable _ hd hk
  · exact hn ▸ readModifyWrite_of_imm _ hr

/-! ### CMP -/

theorem compareSigned_of_lt {x y : Word} (h : x.toInt < y.toInt) : compareSigned x y = .lessThan :=
  if_pos h

theorem compareSigned_of_gt {x y : Word} (h : y.toInt < x.toInt) : compareSigned x y = .greaterThan := by
  rw [compareSigned, if_neg h.not_gt, if_pos h]

theorem compareSigned_self (x : Word) : compareSigned x x = .equal := by
  rw [compareSigned, if_neg (lt_irrefl _), if_neg (lt_irrefl _)]

/-- The signed order is total on words: the signed value determines the word (spec/41_alu_data.md R127). -/
theorem toInt_trichotomy (x y : Word) : x.toInt < y.toInt ∨ y.toInt < x.toInt ∨ x = y := by
  rcases lt_trichotomy x.toInt y.toInt with h | h | h
  · exact .inl h
  · exact .inr (.inr (BitVec.eq_of_toInt_eq h))
  · exact .inr (.inl h)

section
variable {s : State} {op1 op2 : Operand}

theorem execCmp_of_reads {x y : Word} (h1 : Reads s op1 x) (h2 : Reads s op2 y) :
    execCmp op1 op2 s = .next { s with flag := compareSigned x y, pc := s.pc + 1 } := by
  simp only [execCmp, resolveRead_of_reads h1, resolveRead_of_reads h2, bind, Except.bind, settle_ok,
    State.advance, State.setFlag]

theorem execCmp_of_op1_unresolvable {k : Word} (hk : Unresolvable s op1 k) :
    execCmp op1 op2 s = .next (faultEntry (rangeFault k) s) := by
  simp only [execCmp, resolveRead_of_unresolvable hk, bind, Except.bind, settle_error]

theorem execCmp_of_op2_unresolvable {k x : Word} (h1 : Reads s op1 x) (hk : Unresolvable s op2 k) :
    execCmp op1 op2 s = .next (faultEntry (rangeFault k) s) := by
  simp only [execCmp, resolveRead_of_reads h1, resolveRead_of_unresolvable hk, bind, Except.bind,
    settle_error]

end

/-- Settles O19: by the three cases of the signed order. -/
theorem cmpSetsFlagBySignedOrder : Obligations.CmpSetsFlagBySignedOrder := by
  refine ⟨fun _ _ _ => low_bits_of_decode, fun s op1 op2 =>
    ⟨fun x y h1 h2 => ⟨toInt_trichotomy x y, fun hlt => ?_, fun hgt => ?_, fun heq => ?_⟩,
      fun k hk => ?_, fun k x h1 hk => ?_⟩⟩
  · exact compareSigned_of_lt hlt ▸ execCmp_of_reads h1 h2
  · exact compareSigned_of_gt hgt ▸ execCmp_of_reads h1 h2
  · subst heq
    exact compareSigned_self x ▸ execCmp_of_reads h1 h2
  · exact execCmp_of_op1_unresolvable hk
  · exact execCmp_of_op2_unresolvable h1 hk

end Sys2Proof.Machine
end

section
/-!
PROOF. The core and the unbounded machine (spec/41_alu_data.md R129). A step of the core is a step of the
machine over numbers for every `keep` that does to the values of that step what `XLEN` bits do
(`intStep_view`), and keeping every integer does so while no register leaves the signed range
(`intExec_id_eq`).
-/

namespace Sys2Proof.Machine

/-! ### The launch -/

/-- A value in the signed range is kept as it is (spec/00_scope.md R11). -/
theorem wrapAt_of_fits {c : Config.Params} {n : Int} (hl : -2 ^ (c.xlen - 1) ≤ n)
    (hu : n < 2 ^ (c.xlen - 1)) : wrapAt c n = n := by
  have hx := c.two_le_xlen
  have e : (2 : Nat) ^ c.xlen = 2 * 2 ^ (c.xlen - 1) := by
    rw [← pow_succ', Nat.sub_add_cancel (by omega)]
  have e' : ((2 ^ c.xlen : Nat) : Int) = 2 * 2 ^ (c.xlen - 1) := by rw [e]; push_cast; rfl
  apply Int.bmod_eq_of_le <;> rw [e'] <;> omega

theorem fitsSigned_iff {n : Int} :
    fitsSigned n = true ↔ -2 ^ (Config.xlen - 1) ≤ n ∧ n < 2 ^ (Config.xlen - 1) := by
  simp only [fitsSigned, Bool.and_eq_true, decide_eq_true_eq]

theorem fitsBudget_iff {n : Int} : fitsBudget n = true ↔ 0 ≤ n ∧ n < 2 ^ Config.stepW := by
  simp only [fitsBudget, Bool.and_eq_true, decide_eq_true_eq]

theorem launchAdmitted_iff {l : LaunchItems} :
    launchAdmitted l = true ↔
      l.init.length ≤ Config.maxLength ∧ (∀ n ∈ l.init, fitsSigned n = true) ∧
        l.imem.length ≤ Config.maxLength ∧ fitsBudget l.budgetValue = true := by
  simp only [launchAdmitted, Bool.and_eq_true, decide_eq_true_eq, List.all_eq_true, and_assoc]

/-- An admitted initial value is the signed value of its word. -/
theorem toInt_ofInt_of_fitsSigned {n : Int} (h : fitsSigned n = true) :
    (BitVec.ofInt Config.xlen n).toInt = n := by
  obtain ⟨hl, hu⟩ := fitsSigned_iff.mp h
  rw [BitVec.toInt_ofInt]
  exact wrapAt_of_fits (c := Config.params) hl hu

/-- An admitted budget is the number of its word. -/
theorem toNat_ofInt_of_fitsBudget {n : Int} (h : fitsBudget n = true) :
    (BitVec.ofInt Config.stepW n).toNat = n.toNat := by
  obtain ⟨hl, hu⟩ := fitsBudget_iff.mp h
  rw [BitVec.toNat_ofInt, Int.emod_eq_of_lt hl (by push_cast; exact hu)]

/-- An admitted launch of the core is the launch over numbers (spec/10_state.md R40). -/
theorem intView_launchState {l : LaunchItems} (h : launchAdmitted l = true) :
    intView (launchState l) = intLaunch l.asNumbers := by
  obtain ⟨-, hinit, -, hbudget⟩ := launchAdmitted_iff.mp h
  have hregs : (l.init.map (BitVec.ofInt Config.xlen)).map BitVec.toInt = l.init := by
    rw [List.map_map]
    exact (List.map_congr_left fun n hn => toInt_ofInt_of_fitsSigned (hinit n hn)).trans (List.map_id _)
  have hb : (BitVec.ofInt Config.stepW l.budgetValue).toNat = l.asNumbers.budgetValue.toNat :=
    toNat_ofInt_of_fitsBudget hbudget
  simp only [intView, launchState, intLaunch, hregs, hb]
  rfl

/-! ### One instruction, on the words and on the numbers -/

/-- Two computations that agree at each of two stages agree as a whole. -/
theorem bind_view {α β α' β' : Type} {v : α → α'} {g : β → β'} {x : Except Raise α}
    {x' : Except IntRaise α'} {f : α → Except Raise β} {f' : α' → Except IntRaise β'}
    (hx : x' = resultView v x) (hf : ∀ a, f' (v a) = resultView g (f a)) :
    x' >>= f' = resultView g (x >>= f) := by
  subst hx
  cases x with
  | error r => rfl
  | ok a => exact hf a

theorem advance_view (s : State) :
    (.ok ((intView s).advance (wrapAt Config.params)) : Except IntRaise IntState) =
      resultView intView (.ok s.advance) :=
  congrArg Except.ok (intView_advance s).symm

theorem intReadModifyWrite_view {f : Word → Word → Word} {f' : Int → Int → Int}
    (hf : ∀ x y, wrapAt Config.params (f' x.toInt y.toInt) = (f x y).toInt) (s : State)
    {dst src : Operand} (hd : dst.wf = true) (hs : src.wf = true) :
    intReadModifyWrite (wrapAt Config.params) f' (operandView dst) (operandView src) (intView s) =
      resultView intView (readModifyWrite f dst src s) :=
  bind_view (intResolveRead_view hd) fun x => bind_view (intResolveRead_view hs) fun y => by
    rw [hf]
    exact bind_view (intResolveWrite_view _ hd) advance_view

theorem intJump_view (taken : Prop) [Decidable taken] (s : State) {target : Operand}
    (h : target.wf = true) :
    intJump (wrapAt Config.params) (decide taken) (operandView target) (intView s) =
      resultView intView (if taken then takeJump target s else .ok s.advance) := by
  by_cases ht : taken
  · simp only [intJump, decide_eq_true ht, if_pos ht, if_true]
    exact bind_view (intResolveRead_view h) fun _ => rfl
  · simp only [intJump, decide_eq_false ht, if_neg ht, Bool.false_eq_true, if_false]
    exact advance_view s

/-- Both operands of an instruction that has an encoding have one. -/
theorem wf_of_operands_pair {i : Instr} {o1 o2 : Operand} (hi : i.operands = [o1, o2]) (h : i.wf = true) :
    o1.wf = true ∧ o2.wf = true := by
  rw [instr_wf_iff, hi] at h
  exact ⟨h o1 (by simp), h o2 (by simp)⟩

/-- The operand of an instruction that has an encoding has one. -/
theorem wf_of_operands_single {i : Instr} {o : Operand} (hi : i.operands = [o]) (h : i.wf = true) :
    o.wf = true := by
  rw [instr_wf_iff, hi] at h
  exact h o (by simp)

/-- An instruction ends in a state or raises, on the words as on the numbers. -/
theorem intExec_view {i : Instr} (s : State) (h : i.wf = true) :
    ∃ r, exec i s = settle s r ∧
      intExec (wrapAt Config.params) (instrView i) (intView s) = resultView intView r := by
  cases i with
  | blank => exact ⟨.ok s.advance, rfl, advance_view s⟩
  | mov dst src =>
    obtain ⟨hd, hs⟩ := wf_of_operands_pair rfl h
    exact ⟨_, rfl, bind_view (intResolveRead_view hs) fun v =>
      bind_view (intResolveWrite_view v hd) advance_view⟩
  | add dst src =>
    obtain ⟨hd, hs⟩ := wf_of_operands_pair rfl h
    exact ⟨_, rfl, intReadModifyWrite_view wrapAt_add s hd hs⟩
  | mul dst src =>
    obtain ⟨hd, hs⟩ := wf_of_operands_pair rfl h
    exact ⟨_, rfl, intReadModifyWrite_view wrapAt_mul s hd hs⟩
  | cmp op1 op2 =>
    obtain ⟨h1, h2⟩ := wf_of_operands_pair rfl h
    exact ⟨_, rfl, bind_view (intResolveRead_view h1) fun x =>
      bind_view (intResolveRead_view h2) fun y => advance_view (s.setFlag (compareSigned x y))⟩
  | jmp o => exact ⟨takeJump o s, rfl, intJump_view True s (wf_of_operands_single rfl h)⟩
  | jeq o | jgt o | jlt o => exact ⟨_, rfl, intJump_view _ s (wf_of_operands_single rfl h)⟩
  | halt => exact ⟨.ok s.halt, rfl, rfl⟩

/-! ### One step over numbers, whatever `keep` is -/

section
variable (keep : Int → Int) {s : State}

/-- The termination test on numbers is the core's (spec/43_fetch_execute_engine.md R161). -/
theorem terminates_view :
    ((intView s).pc < 0 ∨ ((intView s).imem.length : Int) ≤ (intView s).pc ∨
      (intView s).steps = (intView s).budget) ↔ PcOutside s ∨ s.steps = s.budget := by
  simp only [intView, List.length_map, PcOutside, BitVec.toNat_inj, or_assoc]

theorem intStep_of_ended (h : Ended s) : intStep Config.immW keep (intView s) = intView s := by
  have hs : (intView s).status = s.status := rfl
  unfold intStep
  rw [hs]
  cases hstatus : s.status with
  | running => exact absurd hstatus h
  | halted | faulted => rfl

theorem intStep_of_terminating (hr : s.status = .running) (h : PcOutside s ∨ s.steps = s.budget) :
    intStep Config.immW keep (intView s) = intView s.halt := by
  have hs : (intView s).status = .running := hr
  unfold intStep
  rw [hs]
  exact if_pos (terminates_view.mpr h)

/-- The budget is not reached where a word is executed (spec/10_state.md R31). -/
theorem steps_lt_budget_of_executes {iw : IWord} (h : Executes s iw)
    (hb : s.steps.toNat ≤ s.budget.toNat) : s.steps.toNat < s.budget.toNat := by
  obtain ⟨-, hne, -⟩ := h
  exact lt_of_le_of_ne hb fun e => hne (BitVec.eq_of_toNat_eq e)

/-- The word fetched as a number. -/
theorem imem_getD_view {iw : IWord} (h : Fetches s iw) :
    (intView s).imem.getD (intView s).pc.toNat 0 = iw.toNat := by
  obtain ⟨h0, hw⟩ := h
  have hi : s.pc.toInt.toNat = s.pc.toNat := by have := toInt_toNat_of_nonneg h0; omega
  simp [intView, hi, List.getD_eq_getElem?_getD, hw]

theorem intStep_of_executes {iw : IWord} (h : Executes s iw) (hb : s.steps.toNat ≤ s.budget.toNat) :
    intStep Config.immW keep (intView s) =
      intExecuteWord Config.immW keep iw.toNat (intView s.countStep) := by
  have hlt := steps_lt_budget_of_executes h hb
  obtain ⟨hr, hne, hf⟩ := h
  have hs : (intView s).status = .running := hr
  have hgo : ¬ (PcOutside s ∨ s.steps = s.budget) := not_or.mpr ⟨inside_of_fetches hf, hne⟩
  unfold intStep
  rw [hs]
  simp only [if_neg (terminates_view.not.mpr hgo), imem_getD_view hf, intView_countStep hlt, hs]

theorem intExecuteWord_of_malformed {iw : IWord} {r : Raise} (h : decode iw = .error r) (s : IntState) :
    intExecuteWord Config.immW keep iw.toNat s = intFault keep (raiseView r) s := by
  simp only [intExecuteWord, intDecode_view, h, resultView_error]

theorem intExecuteWord_of_ok {iw : IWord} {i : Instr} {s t : IntState} (h : decode iw = .ok i)
    (he : intExec keep (instrView i) s = .ok t) : intExecuteWord Config.immW keep iw.toNat s = t := by
  simp only [intExecuteWord, intDecode_view, h, resultView_ok, he]

theorem intExecuteWord_of_error {iw : IWord} {i : Instr} {s : IntState} {e : IntRaise}
    (h : decode iw = .ok i) (he : intExec keep (instrView i) s = .error e) :
    intExecuteWord Config.immW keep iw.toNat s = intFault keep e s := by
  simp only [intExecuteWord, intDecode_view, h, resultView_ok, he]

end

/-! ### One step, on the words and on the numbers -/

section
variable {keep : Int → Int} (hkeep : ∀ x : Word, keep x.toInt = x.toInt)
include hkeep

theorem intFault_view (r : Raise) (s : State) :
    intFault keep (raiseView r) (intView s) = intView (faultEntry r s) := by
  simp only [intFault, intView, raiseView, hkeep, faultEntry]

/-- The core executes a word as the machine over numbers does, if that machine's values are kept as `XLEN`
bits keep them. -/
theorem intExecuteWord_view {s : State} {iw : IWord}
    (hexec : ∀ i, decode iw = .ok i →
      intExec keep (instrView i) (intView s) = intExec (wrapAt Config.params) (instrView i) (intView s)) :
    ∃ t, executeWord iw s = .next t ∧
      intExecuteWord Config.immW keep iw.toNat (intView s) = intView t := by
  cases hd : decode iw with
  | error r =>
    refine ⟨faultEntry r s, by rw [executeWord, hd], ?_⟩
    rw [intExecuteWord_of_malformed keep hd, intFault_view hkeep]
  | ok i =>
    obtain ⟨r, hr, hr'⟩ := intExec_view s (decode_wf hd)
    rw [← hexec i hd] at hr'
    have he : executeWord iw s = settle s r := by rw [executeWord, hd, ← hr]
    cases r with
    | ok t => exact ⟨t, he, intExecuteWord_of_ok keep hd hr'⟩
    | error e =>
      exact ⟨faultEntry e s, he, (intExecuteWord_of_error keep hd hr').trans (intFault_view hkeep e s)⟩

/-- A step of the core is a step of the machine over numbers, if the values of that step are kept as `XLEN`
bits keep them (spec/43_fetch_execute_engine.md R160). -/
theorem intStep_view {s : State} (hb : s.steps.toNat ≤ s.budget.toNat)
    (hexec : ∀ iw i, Executes s iw → decode iw = .ok i →
      intExec keep (instrView i) (intView s.countStep) =
        intExec (wrapAt Config.params) (instrView i) (intView s.countStep)) :
    ∃ t, step s = .next t ∧ intStep Config.immW keep (intView s) = intView t := by
  rcases state_cases s with he | ⟨hr, ht⟩ | ⟨iw, hx⟩
  · exact ⟨s, step_of_ended he, intStep_of_ended keep he⟩
  · exact ⟨s.halt, step_of_terminating hr ht, intStep_of_terminating keep hr ht⟩
  · rw [step_of_executes hx, intStep_of_executes keep hx hb]
    exact intExecuteWord_view hkeep fun i => hexec iw i hx

end

/-! ### An instruction whose results are in range -/

/-- A write over numbers fails whatever the value is, or sets one register. -/
theorem intWrite_cases (s : IntState) (i : Int) :
    (∃ e, ∀ v, intWrite s i v = .error e) ∨
    ∃ j, j < s.regs.length ∧ ∀ v, intWrite s i v = .ok { s with regs := s.regs.set j v } := by
  by_cases h : 0 ≤ i ∧ i < (s.regs.length : Int)
  · exact .inr ⟨i.toNat, by omega, fun v => if_pos h⟩
  · exact .inl ⟨_, fun v => if_neg h⟩

/-- Everything the write resolution over numbers can answer. -/
theorem intResolveWrite_cases (s : IntState) (o : IntOperand) :
    (∃ e, ∀ v, intResolveWrite s v o = .error e) ∨
    ∃ j, j < s.regs.length ∧ ∀ v, intResolveWrite s v o = .ok { s with regs := s.regs.set j v } := by
  cases o with
  | imm n => exact .inl ⟨_, fun _ => rfl⟩
  | reg idx => exact intWrite_cases s idx
  | ptr idx =>
    simp only [intResolveWrite]
    cases intRead s idx with
    | error e => exact .inl ⟨e, fun _ => rfl⟩
    | ok a => exact intWrite_cases s a

section
variable {keep : Int → Int} {s : IntState} (hpc : keep (s.pc + 1) = s.pc + 1)
include hpc

theorem advance_id_eq {t : IntState} (ht : t.pc = s.pc) : t.advance id = t.advance keep := by
  simp only [IntState.advance, ht, hpc, id]

/-- A sum or a product that is kept where it is written may as well be kept at once. -/
theorem intReadModifyWrite_id_eq {f : Int → Int → Int} {dst src : IntOperand}
    (hregs : ∀ t, intReadModifyWrite id f dst src s = .ok t → ∀ v ∈ t.regs, keep v = v) :
    intReadModifyWrite id f dst src s = intReadModifyWrite keep f dst src s := by
  unfold intReadModifyWrite at hregs ⊢
  cases ha : intResolveRead s dst with
  | error e => rfl
  | ok a =>
    cases hb : intResolveRead s src with
    | error e => rfl
    | ok b =>
      simp only [ha, hb, bind, Except.bind] at hregs ⊢
      rcases intResolveWrite_cases s dst with ⟨e, hw⟩ | ⟨j, hj, hw⟩
      · simp only [hw]
      · simp only [hw] at hregs ⊢
        have hkept : keep (f a b) = f a b := hregs _ rfl _ (List.mem_set hj _)
        rw [hkept]
        exact congrArg Except.ok (advance_id_eq hpc rfl)

theorem intJump_id_eq (taken : Bool) (target : IntOperand) :
    intJump id taken target s = intJump keep taken target s := by
  cases taken with
  | true => rfl
  | false => exact congrArg Except.ok (advance_id_eq hpc rfl)

/-- An instruction over the unbounded integers does what it does with `keep`, where `keep` leaves alone the
next pc and the registers it ends with. -/
theorem intExec_id_eq {i : IntInstr}
    (hregs : ∀ t, intExec id i s = .ok t → ∀ v ∈ t.regs, keep v = v) :
    intExec id i s = intExec keep i s := by
  cases i with
  | blank => exact congrArg Except.ok (advance_id_eq hpc rfl)
  | mov dst src =>
    simp only [intExec]
    cases intResolveRead s src with
    | error e => rfl
    | ok v =>
      rcases intResolveWrite_cases s dst with ⟨e, hw⟩ | ⟨j, -, hw⟩ <;> simp only [bind, Except.bind, hw]
      exact congrArg Except.ok (advance_id_eq hpc rfl)
  | add dst src => exact intReadModifyWrite_id_eq hpc hregs
  | mul dst src => exact intReadModifyWrite_id_eq hpc hregs
  | cmp op1 op2 =>
    simp only [intExec]
    cases intResolveRead s op1 with
    | error e => rfl
    | ok x =>
      cases intResolveRead s op2 with
      | error e => rfl
      | ok y => exact congrArg Except.ok (advance_id_eq hpc rfl)
  | jmp o => rfl
  | jeq o | jgt o | jlt o => exact intJump_id_eq hpc _ o
  | halt => rfl

end

/-! ### The run -/

/-- The pc after an instruction of the store is in range (spec/00_scope.md R5: `L <= 2^(XLEN-1) - 1`). -/
theorem wrapAt_pc_succ {s : State} {iw : IWord} (hf : Fetches s iw)
    (hstore : s.imem.length ≤ Config.maxLength) :
    wrapAt Config.params (s.pc.toInt + 1) = s.pc.toInt + 1 := by
  have hin := inside_of_fetches hf
  have e : ((2 ^ (Config.xlen - 1) : Nat) : Int) = 2 ^ (Config.xlen - 1) := by push_cast; rfl
  unfold PcOutside at hin
  apply wrapAt_of_fits <;> simp only [Config.maxLength] at hstore ⊢ <;> omega

/-- One step of the core is one step of the unbounded machine, where the registers that step ends with are
in range. -/
theorem unboundedStep_view {s : State} (hb : s.steps.toNat ≤ s.budget.toNat)
    (hstore : s.imem.length ≤ Config.maxLength)
    (hregs : ∀ v ∈ (unboundedStep (intView s)).regs, wrapAt Config.params v = v) :
    ∃ t, step s = .next t ∧ unboundedStep (intView s) = intView t := by
  refine intStep_view (fun _ => rfl) hb fun iw i hx hd => ?_
  have hend : ∀ t, intExec id (instrView i) (intView s.countStep) = .ok t →
      unboundedStep (intView s) = t := fun t he =>
    (intStep_of_executes id hx hb).trans (intExecuteWord_of_ok id hd he)
  obtain ⟨-, -, hf⟩ := hx
  exact intExec_id_eq (wrapAt_pc_succ hf hstore) fun t he => hend t he ▸ hregs

/-- A step does not take the counter past the budget (spec/10_state.md R31). -/
theorem step_keeps_steps_le_budget {s t : State} (h : step s = .next t)
    (hb : s.steps.toNat ≤ s.budget.toNat) : t.steps.toNat ≤ t.budget.toNat := by
  obtain ⟨-, hcounted⟩ := stepsAreCounted
  obtain ⟨hcount, hkeep⟩ := hcounted s t h
  obtain ⟨-, -, hbudget, -⟩ := runParametersNeverChange s t h
  rcases state_cases s with he | ⟨-, ht⟩ | ⟨iw, hr, hne, hf⟩
  · rwa [hkeep (.inl he), hbudget]
  · rwa [hkeep (.inr ht), hbudget]
  · obtain ⟨-, hle⟩ := hcount hr (inside_of_fetches hf) hne
    exact (hle hb).2

/-- `n` steps of the core are `n` steps of the unbounded machine, where every register on the way is in
range. -/
theorem unboundedRun_view {n : Nat} {s : State} (hb : s.steps.toNat ≤ s.budget.toNat)
    (hstore : s.imem.length ≤ Config.maxLength)
    (hregs : ∀ k ≤ n, ∀ v ∈ (unboundedRun k (intView s)).regs, wrapAt Config.params v = v) :
    ∃ t, Reaches n s t ∧ intView t = unboundedRun n (intView s) := by
  induction n generalizing s with
  | zero => exact ⟨s, reaches_zero.mpr rfl, rfl⟩
  | succ n ih =>
    obtain ⟨u, hu, hview⟩ := unboundedStep_view hb hstore (hregs 1 (by omega))
    obtain ⟨himem, -⟩ := runParametersNeverChange s u hu
    have hrun : ∀ k, unboundedRun (k + 1) (intView s) = unboundedRun k (intView u) := fun k => by
      rw [unboundedRun, hview]
    obtain ⟨t, ht, htview⟩ := ih (step_keeps_steps_le_budget hu hb) (himem ▸ hstore)
      fun k hk => hrun k ▸ hregs (k + 1) (by omega)
    exact ⟨t, (reaches_succ hu).mpr ht, by rw [hrun, htview]⟩

/-- Settles O50: the launches agree, and the runs agree by induction on the number of steps. -/
theorem agreesWithUnboundedIntegers : Obligations.AgreesWithUnboundedIntegers := by
  intro l s n h hregs
  obtain ⟨hadm, rfl⟩ := launch_inv h
  obtain ⟨-, -, hstore, -⟩ := launchAdmitted_iff.mp hadm
  rw [← intView_launchState hadm] at hregs ⊢
  refine unboundedRun_view (Nat.zero_le _) hstore fun k hk v hv => ?_
  obtain ⟨hl, hu⟩ := hregs k hk v hv
  exact wrapAt_of_fits hl hu

end Sys2Proof.Machine
end

section
/-!
PROOF. Control transfer (spec/42_control_transfer.md R140 to R148). The words of an instruction are said once on
their low six bits (`decode_of_low_bits`), the jumps once on a target that reads and on one that does not, and
JEQ, JGT and JLT once as what they have in common (`IsConditionalJump`).
-/

namespace Sys2Proof.Machine

/-! ### The low six bits of a word -/

/-- A word whose low six bits are the row of an opcode passes the opcode test and the arity test, whatever its
other bits are (spec/30_encoding.md R78, R84). -/
theorem decode_of_low_bits {iw : IWord} {op : Opcode}
    (h : iw.toNat % 64 = (opcodeNumber op).toNat + 16 * arity op) : decode iw = decodeForm op iw := by
  have hlt : (opcodeNumber op).toNat < 16 := (opcodeNumber op).isLt
  have hop : (opField iw).toNat = (opcodeNumber op).toNat := by rw [opField_toNat]; omega
  have hcnt : (cntField iw).toNat = arity op := by rw [cntField_toNat]; have := arity_le_two op; omega
  rw [decode, hop, opcodeOfNumber_opcodeNumber]
  exact if_pos hcnt

/-! ### Operands -/

/-- What an operand reads depends on the registers only (spec/40_register_file_and_operands.md R103). -/
theorem reads_congr {s u : State} (h : u.regs = s.regs) {o : Operand} {v : Word} :
    Reads u o v ↔ Reads s o v := by
  cases o <;> simp only [Reads, Holds, h]

@[simp] theorem reads_countStep {s : State} {o : Operand} {v : Word} :
    Reads s.countStep o v ↔ Reads s o v := reads_congr rfl

/-! ### Jumps, evaluated -/

section
variable {want : ComparisonFlag} {target : Operand} {s : State}

theorem takeJump_of_reads {t : Word} (h : Reads s target t) :
    settle s (takeJump target s) = .next { s with pc := t } := by
  simp only [takeJump, resolveRead_of_reads h, bind, Except.bind, settle_ok, State.jumpTo]

theorem takeJump_of_unresolvable {k : Word} (h : Unresolvable s target k) :
    settle s (takeJump target s) = .next (faultEntry (rangeFault k) s) := by
  simp only [takeJump, resolveRead_of_unresolvable h, bind, Except.bind, settle_error]

theorem conditionalJump_of_taken (h : s.flag = want) :
    conditionalJump want target s = takeJump target s := if_pos h

/-- A jump that is not taken does not resolve its target (spec/42_control_transfer.md R142). -/
theorem conditionalJump_of_not_taken (h : s.flag ≠ want) :
    conditionalJump want target s = .ok s.advance := if_neg h

theorem conditionalJump_of_reads {t : Word} (h : Reads s target t) :
    settle s (conditionalJump want target s) =
      .next { s with pc := if s.flag = want then t else s.pc + 1 } := by
  by_cases hf : s.flag = want
  · rw [conditionalJump_of_taken hf, takeJump_of_reads h, if_pos hf]
  · rw [conditionalJump_of_not_taken hf, settle_ok, if_neg hf, State.advance]

end

/-- Settles O21: a JMP word has the low six bits of JMP and its target in slot 1. -/
theorem jmpTakesTargetVerbatim : Obligations.JmpTakesTargetVerbatim := by
  refine ⟨fun _ _ => low_bits_of_decode, fun iw hlow hm => ?_, fun s target => ⟨fun t ht => ?_, fun k hk => ?_⟩⟩
  · have hd : decode iw = decodeOne iw .jmp := decode_of_low_bits (op := .jmp) hlow
    rw [hd, decodeOne_eq, if_neg hm]
  · exact takeJump_of_reads ht
  · exact takeJump_of_unresolvable hk

/-! ### The conditional jumps -/

/-- What JEQ, JGT and JLT have in common: the words of the jump are those with the low six bits `code` and a
target in slot 1, and it is the jump taken on the flag value `want`. -/
structure IsConditionalJump (jump : Operand → Instr) (want : ComparisonFlag) (code : Nat) : Prop where
  low_bits : ∀ {iw target}, decode iw = .ok (jump target) → iw.toNat % 64 = code
  decode_eq : ∀ {iw : IWord}, iw.toNat % 64 = code → decode iw = decodeOne iw jump
  exec_eq : ∀ target s, exec (jump target) s = settle s (conditionalJump want target s)

theorem isConditionalJump_jeq : IsConditionalJump .jeq .equal 0x16 :=
  ⟨low_bits_of_decode, decode_of_low_bits (op := .jeq), fun _ _ => rfl⟩

theorem isConditionalJump_jgt : IsConditionalJump .jgt .greaterThan 0x17 :=
  ⟨low_bits_of_decode, decode_of_low_bits (op := .jgt), fun _ _ => rfl⟩

theorem isConditionalJump_jlt : IsConditionalJump .jlt .lessThan 0x18 :=
  ⟨low_bits_of_decode, decode_of_low_bits (op := .jlt), fun _ _ => rfl⟩

namespace IsConditionalJump

variable {jump : Operand → Instr} {want : ComparisonFlag} {code : Nat} {s : State} {target : Operand}

/-- The decoder comes before the flag (spec/42_control_transfer.md R142). -/
theorem faults_of_mode_three (hj : IsConditionalJump jump want code) {iw : IWord}
    (hlow : iw.toNat % 64 = code) (hm : m1Number iw = 3) : FaultsWhenExecuted iw .invalidOperandFormat 1 := by
  apply faultsWhenExecuted_of_decode
  rw [hj.decode_eq hlow, decodeOne_eq, if_pos hm]

theorem exec_of_unresolvable (hj : IsConditionalJump jump want code) {k : Word} (hf : s.flag = want)
    (hk : Unresolvable s target k) : exec (jump target) s = .next (faultEntry (rangeFault k) s) := by
  rw [hj.exec_eq, conditionalJump_of_taken hf, takeJump_of_unresolvable hk]

theorem exec_of_not_taken (hj : IsConditionalJump jump want code) (hf : s.flag ≠ want) :
    exec (jump target) s = .next { s with pc := s.pc + 1 } := by
  rw [hj.exec_eq, conditionalJump_of_not_taken hf, settle_ok, State.advance]

theorem exec_of_reads (hj : IsConditionalJump jump want code) {t : Word} (ht : Reads s target t) :
    exec (jump target) s = .next { s with pc := if s.flag = want then t else s.pc + 1 } := by
  rw [hj.exec_eq, conditionalJump_of_reads ht]

end IsConditionalJump

/-- Settles O22: each of the three is a conditional jump, and what it does is said of all of them. -/
theorem conditionalJumpsFollowTheFlag : Obligations.ConditionalJumpsFollowTheFlag := by
  intro jump want code hmem
  have hj : IsConditionalJump jump want code := by
    simp only [List.mem_cons, List.not_mem_nil, or_false, Prod.mk.injEq] at hmem
    rcases hmem with ⟨rfl, rfl, rfl⟩ | ⟨rfl, rfl, rfl⟩ | ⟨rfl, rfl, rfl⟩
    · exact isConditionalJump_jeq
    · exact isConditionalJump_jgt
    · exact isConditionalJump_jlt
  refine ⟨fun _ _ => hj.low_bits, fun _ => hj.faults_of_mode_three, fun s target =>
    ⟨fun t hf ht => ?_, fun k hf hk => ?_, fun hf => ?_⟩⟩
  · rw [hj.exec_of_reads ht, if_pos hf]
  · exact hj.exec_of_unresolvable hf hk
  · exact hj.exec_of_not_taken hf

/-! ### The flag after a CMP -/

/-- The flag a CMP sets names the order of its operands (spec/41_alu_data.md R127). -/
theorem compareSigned_iff (x y : Word) :
    (compareSigned x y = .equal ↔ x = y) ∧ (compareSigned x y = .greaterThan ↔ y.toInt < x.toInt) ∧
      (compareSigned x y = .lessThan ↔ x.toInt < y.toInt) := by
  rcases toInt_trichotomy x y with hlt | hgt | rfl
  · have hne : x ≠ y := fun e => hlt.ne (congrArg BitVec.toInt e)
    simp [compareSigned_of_lt hlt, hlt, hlt.le, hne]
  · have hne : x ≠ y := fun e => hgt.ne' (congrArg BitVec.toInt e)
    simp [compareSigned_of_gt hgt, hgt, hgt.le, hne]
  · simp [compareSigned_self]

/-- The jumps whose target reads as `t`, for each value of the flag (spec/42_control_transfer.md R147). -/
theorem exec_jumps_of_reads {s : State} {target : Operand} {t : Word} (ht : Reads s target t) :
    exec (.jmp target) s = .next { s with pc := t } ∧
    exec (.jeq target) s = .next { s with pc := if s.flag = .equal then t else s.pc + 1 } ∧
    exec (.jgt target) s = .next { s with pc := if s.flag = .greaterThan then t else s.pc + 1 } ∧
    exec (.jlt target) s = .next { s with pc := if s.flag = .lessThan then t else s.pc + 1 } :=
  ⟨takeJump_of_reads ht, isConditionalJump_jeq.exec_of_reads ht, isConditionalJump_jgt.exec_of_reads ht,
    isConditionalJump_jlt.exec_of_reads ht⟩

/-- Settles O23: the jump after a CMP reads the flag that CMP computed, and its target as before. -/
theorem compareThenJump : Obligations.CompareThenJump := by
  refine ⟨fun l s h => ?_, fun s target t => exec_jumps_of_reads, fun s op1 op2 target x y t h1 h2 ht => ?_⟩
  · obtain ⟨-, rfl⟩ := launch_inv h
    rfl
  · refine ⟨_, execCmp_of_reads h1 h2, ?_⟩
    obtain ⟨heq, hgt, hlt⟩ := compareSigned_iff x y
    simp only [← heq, ← hgt, ← hlt]
    exact exec_jumps_of_reads ((reads_congr rfl).mpr ht)

/-! ### HALT and the blank instruction -/

/-- Settles O24: no operand slot is used, so the low six bits are all the decoder reads. -/
theorem haltEndsTheRun : Obligations.HaltEndsTheRun := by
  have hwords : ∀ iw : IWord, decode iw = .ok .halt ↔ iw.toNat % 64 = 0x09 :=
    fun _ => ⟨low_bits_of_decode, decode_of_low_bits (op := .halt)⟩
  exact ⟨hwords, fun _ => rfl, fun _ iw hx hlow => step_of_decoded hx ((hwords iw).mpr hlow)⟩

/-- Settles O25: the words are those of O7. -/
theorem blankAdvancesThePc : Obligations.BlankAdvancesThePc := by
  obtain ⟨hwords, -, -⟩ := blankWords
  exact ⟨hwords, fun _ => rfl, fun _ iw hx hlow => step_of_decoded hx ((hwords iw).mpr hlow)⟩

/-! ### The pc after a step -/

/-- An instruction completed in a state that is not Faulted does not end Faulted. -/
theorem Completes.not_faulted {i : Instr} {s t : State} (hs : s.status ≠ .faulted) (hc : Completes i s t) :
    t.status ≠ .faulted := by
  cases i with
  | blank => obtain rfl := hc; exact hs
  | mov dst src => obtain ⟨a, v, -, -, rfl⟩ := hc; exact hs
  | add dst src | mul dst src => obtain ⟨a, x, y, -, -, -, rfl⟩ := hc; exact hs
  | cmp op1 op2 => obtain ⟨x, y, -, -, rfl⟩ := hc; exact hs
  | jmp o => obtain ⟨v, -, rfl⟩ := hc; exact hs
  | jeq o | jgt o | jlt o => rcases hc with ⟨v, -, -, rfl⟩ | ⟨-, rfl⟩ <;> exact hs
  | halt => obtain rfl := hc; nofun

/-- An instruction that faults keeps the pc (spec/60_exceptions.md R188). -/
theorem exec_pc_of_faulted {i : Instr} {s t : State} (hs : s.status ≠ .faulted) (h : exec i s = .next t)
    (hf : t.status = .faulted) : t.pc = s.pc := by
  rcases exec_inv h with ⟨o, k, -, -, rfl⟩ | ⟨n, -, rfl⟩ | hc
  · rfl
  · rfl
  · exact absurd hf (hc.not_faulted hs)

/-- A completed data instruction advances the pc by one. -/
theorem Completes.pc_of_data {i : Instr} {o1 o2 : Operand} {s t : State}
    (hi : WritesRegister i o1 o2 ∨ i = .cmp o1 o2) (hc : Completes i s t) : t.pc = s.pc + 1 := by
  rcases hi with (rfl | rfl | rfl) | rfl
  · obtain ⟨a, v, -, -, rfl⟩ := hc; rfl
  · obtain ⟨a, x, y, -, -, -, rfl⟩ := hc; rfl
  · obtain ⟨a, x, y, -, -, -, rfl⟩ := hc; rfl
  · obtain ⟨x, y, -, -, rfl⟩ := hc; rfl

/-- A completed JMP leaves the pc at the value of its target. -/
theorem Completes.pc_of_jmp {o : Operand} {s t : State} (hc : Completes (.jmp o) s t) : Reads s o t.pc := by
  obtain ⟨v, hv, rfl⟩ := hc
  exact hv

/-- A completed conditional jump leaves the pc at the value of its target, or one higher. -/
theorem pc_of_jump_or_advance {want : ComparisonFlag} {o : Operand} {s t : State}
    (h : (∃ v, s.flag = want ∧ Reads s o v ∧ t = { s with pc := v }) ∨
      (s.flag ≠ want ∧ t = { s with pc := s.pc + 1 })) :
    (s.flag = want → Reads s o t.pc) ∧ (s.flag ≠ want → t.pc = s.pc + 1) := by
  rcases h with ⟨v, hf, hv, rfl⟩ | ⟨hf, rfl⟩
  · exact ⟨fun _ => hv, absurd hf⟩
  · exact ⟨fun h => absurd h hf, fun _ => rfl⟩

/-- A step that ends Faulted keeps the pc, whether the word was rejected or its instruction faulted. -/
theorem step_pc_of_faulted {s t : State} {iw : IWord} (hx : Executes s iw) (h : step s = .next t)
    (hf : t.status = .faulted) : t.pc = s.pc := by
  cases hd : decode iw with
  | error r =>
    rw [step_of_malformed hx hd] at h
    obtain rfl := Host.Outcome.next.inj h
    rfl
  | ok i =>
    rw [step_of_decoded hx hd] at h
    obtain ⟨hr, -, -⟩ := hx
    exact exec_pc_of_faulted (s := s.countStep) (by rw [State.countStep_status, hr]; nofun) h hf

/-- Settles O26: a step that does not end Faulted has completed its instruction, which gives the pc. -/
theorem nextPcByOutcome : Obligations.NextPcByOutcome := by
  intro s t iw hx h
  have hexec : ∀ i, decode iw = .ok i → exec i s.countStep = .next t :=
    fun i hd => (step_of_decoded hx hd).symm.trans h
  refine ⟨step_pc_of_faulted hx h, fun hd => ?halt, fun hd => ?blank, fun hf => ?completed⟩
  case halt =>
    obtain rfl := Host.Outcome.next.inj (hexec _ hd)
    rfl
  case blank =>
    obtain rfl := Host.Outcome.next.inj (hexec _ hd)
    rfl
  case completed =>
    have hc : ∀ i, decode iw = .ok i → Completes i s.countStep t :=
      fun i hd => completes_of_not_faulted (hexec i hd) hf
    refine ⟨fun o1 o2 hd => ?_, fun o hd => reads_countStep.mp (hc _ hd).pc_of_jmp, fun o hd => ?_,
      fun o hd => ?_, fun o hd => ?_⟩
    · rw [← State.countStep_pc s]
      rcases hd with hd | hd | hd | hd
      · exact (hc _ hd).pc_of_data (.inl (.inl rfl))
      · exact (hc _ hd).pc_of_data (.inl (.inr (.inl rfl)))
      · exact (hc _ hd).pc_of_data (.inl (.inr (.inr rfl)))
      · exact (hc _ hd).pc_of_data (.inr rfl)
    all_goals
      obtain ⟨htaken, hnot⟩ := pc_of_jump_or_advance (hc _ hd)
      exact ⟨fun hflag => reads_countStep.mp (htaken hflag), hnot⟩

end Sys2Proof.Machine
end

section
/-!
PROOF. The fetch-execute engine (spec/43_fetch_execute_engine.md R161, R167 to R171): what the termination test
does, the three ways a run ends Halted, the result of a run, and how many steps a run has. What holds along a run
is proved once for a step and carried over by `reaches_preserves`; a run is counted with `stops_or_executes`: a
state either is ended after its next step or executes a word, which is counted.
-/

namespace Sys2Proof.Machine

/-! ### One step -/

/-- `Step` answers a next state in every state (spec/43_fetch_execute_engine.md R160). -/
theorem step_next (s : State) : ∃ t, step s = .next t := by
  rcases state_cases s with he | ⟨hr, ht⟩ | ⟨iw, hx⟩
  · exact ⟨s, step_of_ended he⟩
  · exact ⟨s.halt, step_of_terminating hr ht⟩
  · cases hd : decode iw with
    | error r => exact ⟨_, step_of_malformed hx hd⟩
    | ok i =>
      obtain ⟨t, ht⟩ := exec_next i s.countStep
      exact ⟨t, (step_of_decoded hx hd).trans ht⟩

/-- Every pc is outside an empty store (spec/43_fetch_execute_engine.md R161, `L = 0`). -/
theorem pcOutside_of_empty_store {s : State} (h : s.imem = []) : PcOutside s := by
  simp only [PcOutside, h, List.length_nil]
  omega

/-- Settles O33. -/
theorem terminalStatesAreKept : Obligations.TerminalStatesAreKept := by
  rintro s (h | h)
  · exact step_of_ended (by rw [Ended, h]; nofun)
  · exact step_of_ended (by rw [Ended, h]; nofun)

/-- Settles O32: a state that passes the termination test has a word at its pc, and the step counts it. -/
theorem terminationTestComesFirst : Obligations.TerminationTestComesFirst := by
  intro s hr
  refine ⟨step_of_terminating hr, fun h => step_of_terminating hr (.inl (pcOutside_of_empty_store h)),
    fun hp hb => ?_⟩
  obtain ⟨iw, hf⟩ := fetches_of_inside hp
  obtain ⟨t, ht⟩ := step_next s
  exact ⟨iw, t, hf, ht, steps_of_executes ⟨hr, hb, hf⟩ ht⟩

/-! ### The three ways to end Halted -/

/-- HALT alone writes the status on completion. -/
theorem Completes.keeps_status {i : Instr} {s t : State} (hi : i ≠ .halt) (hc : Completes i s t) :
    t.status = s.status := by
  cases i with
  | blank => obtain rfl := hc; rfl
  | mov dst src => obtain ⟨a, v, -, -, rfl⟩ := hc; rfl
  | add dst src | mul dst src => obtain ⟨a, x, y, -, -, -, rfl⟩ := hc; rfl
  | cmp op1 op2 => obtain ⟨x, y, -, -, rfl⟩ := hc; rfl
  | jmp o => obtain ⟨v, -, rfl⟩ := hc; rfl
  | jeq o | jgt o | jlt o => rcases hc with ⟨v, -, -, rfl⟩ | ⟨-, rfl⟩ <;> rfl
  | halt => exact absurd rfl hi

/-- An instruction that runs ends Halted exactly when it is HALT. -/
theorem exec_halted_iff {i : Instr} {s t : State} (hr : s.status = .running) (h : exec i s = .next t) :
    t.status = .halted ↔ i = .halt := by
  constructor
  · intro ht
    by_contra hi
    rcases exec_inv h with ⟨o, k, -, -, rfl⟩ | ⟨n, -, rfl⟩ | hc
    · cases ht
    · cases ht
    · rw [hc.keeps_status hi, hr] at ht
      cases ht
  · rintro rfl
    obtain rfl := Host.Outcome.next.inj h
    rfl

/-- Where a word is executed, the one way of the three to end Halted is that the word is a HALT. -/
theorem halts_iff_of_executes {s : State} {iw : IWord} (hx : Executes s iw) :
    (PcOutside s ∨ s.steps = s.budget ∨ ∃ w, Executes s w ∧ decode w = .ok .halt) ↔
      decode iw = .ok .halt := by
  constructor
  · obtain ⟨-, hb, hf⟩ := hx
    rintro (hp | he | ⟨w, ⟨-, -, hw⟩, hd⟩)
    · exact absurd hp (inside_of_fetches hf)
    · exact absurd he hb
    · rwa [fetches_unique hf hw]
  · exact fun hd => .inr (.inr ⟨iw, hx, hd⟩)

/-- Settles O37: the cases of a step, HALT being the one instruction that ends Halted. -/
theorem runsHaltInThreeWays : Obligations.RunsHaltInThreeWays := by
  intro s t hr h
  rcases step_inv h with ⟨he, -⟩ | ⟨-, hstop, rfl⟩ | ⟨iw, r, hx, hd, rfl⟩ | ⟨iw, i, hx, hd, he⟩
  · exact absurd hr he
  · exact ⟨⟨fun _ => hstop.imp id .inl, fun _ => rfl⟩, fun _ => ⟨rfl, rfl, rfl, rfl, rfl⟩⟩
  · rw [halts_iff_of_executes hx, hd]
    exact ⟨⟨nofun, nofun⟩, nofun⟩
  · have hhalt : t.status = .halted ↔ i = .halt := exec_halted_iff (s := s.countStep) hr he
    rw [halts_iff_of_executes hx, hd, Except.ok.injEq]
    refine ⟨hhalt, fun ht => ?_⟩
    obtain rfl := hhalt.mp ht
    obtain rfl := Host.Outcome.next.inj he
    exact ⟨rfl, rfl, rfl, rfl, rfl⟩

/-! ### Runs -/

/-- A run of `n + 1` steps is one step and a run of `n`. -/
theorem reaches_succ_iff {n : Nat} {s t : State} :
    Reaches (n + 1) s t ↔ ∃ u, step s = .next u ∧ Reaches n u t := by
  constructor
  · intro h
    obtain ⟨u, hu⟩ := step_next s
    exact ⟨u, hu, (reaches_succ hu).mp h⟩
  · rintro ⟨u, hu, h⟩
    exact (reaches_succ hu).mpr h

/-- A run followed by a step is a run one step longer. -/
theorem reaches_succ_of_step {n : Nat} {s t u : State} (h : Reaches n s t) (hu : step t = .next u) :
    Reaches (n + 1) s u := by
  induction n generalizing s with
  | zero =>
    obtain rfl := reaches_zero.mp h
    exact reaches_succ_iff.mpr ⟨u, hu, reaches_zero.mpr rfl⟩
  | succ n ih =>
    obtain ⟨v, hv, hrun⟩ := reaches_succ_iff.mp h
    exact reaches_succ_iff.mpr ⟨v, hv, ih hrun⟩

/-- A run has one end. -/
theorem reaches_unique {n : Nat} {s t u : State} (ht : Reaches n s t) (hu : Reaches n s u) : t = u :=
  Host.Outcome.next.inj (ht.symm.trans hu)

/-- What every step keeps, a run keeps. -/
theorem reaches_preserves {P : State → Prop} (hstep : ∀ u v, step u = .next v → P u → P v)
    {n : Nat} {s t : State} (h : Reaches n s t) (hs : P s) : P t := by
  induction n generalizing s with
  | zero => exact reaches_zero.mp h ▸ hs
  | succ n ih =>
    obtain ⟨u, hu, hrun⟩ := reaches_succ_iff.mp h
    exact ih hrun (hstep s u hu hs)

/-- A run keeps the budget and the number of registers (spec/10_state.md R38). -/
theorem reaches_keeps_parameters {n : Nat} {s t : State} (h : Reaches n s t) :
    t.budget = s.budget ∧ t.regs.length = s.regs.length := by
  refine reaches_preserves (P := fun v => v.budget = s.budget ∧ v.regs.length = s.regs.length)
    (fun u v huv hu => ?_) h ⟨rfl, rfl⟩
  obtain ⟨hbudget, hregs⟩ := hu
  obtain ⟨-, -, hbudget', hregs'⟩ := runParametersNeverChange u v huv
  exact ⟨hbudget'.trans hbudget, hregs'.trans hregs⟩

/-! ### The result of a run -/

theorem runResult_of_running {s : State} (h : s.status = .running) : runResult s = none := by
  simp only [runResult, h]

theorem runResult_of_halted {s : State} (h : s.status = .halted) :
    runResult s = some (.registers s.regs) := by
  simp only [runResult, h]

theorem runResult_of_faulted {s : State} {k : FaultKind} (h : s.status = .faulted)
    (hk : s.errKind = some k) : runResult s = some (.error k s.errInfo) := by
  simp only [runResult, h, hk, Option.map_some]

/-- A step that ends Faulted has recorded the fault (spec/10_state.md R34). -/
theorem step_keeps_fault_recorded {s t : State} (h : step s = .next t)
    (hs : s.status = .faulted → ∃ k, s.errKind = some k) :
    t.status = .faulted → ∃ k, t.errKind = some k := by
  rcases step_inv h with ⟨-, rfl⟩ | ⟨-, -, rfl⟩ | ⟨iw, r, -, -, rfl⟩ | ⟨iw, i, ⟨hr, -, -⟩, -, he⟩
  · exact hs
  · nofun
  · exact fun _ => ⟨r.kind, rfl⟩
  · intro hf
    rcases exec_inv he with ⟨o, k, -, -, rfl⟩ | ⟨n, -, rfl⟩ | hc
    · exact ⟨.registerOutOfRange, rfl⟩
    · exact ⟨.invalidWriteTarget, rfl⟩
    · exact absurd hf (hc.not_faulted (by rw [State.countStep_status, hr]; nofun))

/-- Settles O41: along the run the number of registers is kept and a fault is recorded. -/
theorem resultOfARun : Obligations.ResultOfARun := by
  intro l s t n hl hrun
  obtain ⟨-, rfl⟩ := launch_inv hl
  obtain ⟨-, hregs⟩ := reaches_keeps_parameters hrun
  refine ⟨fun ht => ⟨runResult_of_halted ht, hregs.trans (List.length_map _)⟩, fun ht => ?_,
    runResult_of_running⟩
  obtain ⟨k, hk⟩ := reaches_preserves (fun _ _ => step_keeps_fault_recorded) hrun nofun ht
  exact ⟨k, hk, runResult_of_faulted ht hk⟩

/-! ### The length of a run -/

/-- A state is ended after its next step, and from then on, or it executes a word. -/
theorem stops_or_executes (s : State) :
    (∃ t, Ended t ∧ ∀ n, Reaches (n + 1) s t) ∨ ∃ iw, Executes s iw := by
  rcases state_cases s with he | ⟨hr, ht⟩ | hx
  · exact .inl ⟨s, he, fun n => reaches_of_ended (n + 1) he⟩
  · have hhalt : Ended s.halt := nofun
    exact .inl ⟨s.halt, hhalt, fun n => reaches_succ_iff.mpr
      ⟨s.halt, step_of_terminating hr ht, reaches_of_ended n hhalt⟩⟩
  · exact .inr hx

/-- A step that executes a word within the budget uses up one of it (spec/10_state.md R31). -/
theorem step_counts_of_executes {s : State} {iw : IWord} (hx : Executes s iw)
    (hb : s.steps.toNat ≤ s.budget.toNat) :
    ∃ u, step s = .next u ∧ u.steps.toNat = s.steps.toNat + 1 ∧ u.budget = s.budget := by
  obtain ⟨u, hu⟩ := step_next s
  obtain ⟨-, -, hbudget, -⟩ := runParametersNeverChange s u hu
  refine ⟨u, hu, ?_, hbudget⟩
  rw [steps_of_executes hx hu, steps_succ_toNat (steps_lt_budget_of_executes hx hb)]

/-- A run has ended one step after the `n` that its budget leaves. -/
theorem exists_ended_of_budget_left {n : Nat} {s : State} (h : s.steps.toNat + n = s.budget.toNat) :
    ∃ t, Reaches (n + 1) s t ∧ Ended t := by
  induction n generalizing s with
  | zero =>
    rcases stops_or_executes s with ⟨t, ht, hrun⟩ | ⟨iw, hx⟩
    · exact ⟨t, hrun 0, ht⟩
    · have := steps_lt_budget_of_executes hx h.le
      omega
  | succ n ih =>
    rcases stops_or_executes s with ⟨t, ht, hrun⟩ | ⟨iw, hx⟩
    · exact ⟨t, hrun (n + 1), ht⟩
    · obtain ⟨u, hu, hsteps, hbudget⟩ := step_counts_of_executes hx (by omega)
      obtain ⟨t, hrun, ht⟩ := ih (s := u) (by rw [hsteps, hbudget]; omega)
      exact ⟨t, reaches_succ_iff.mpr ⟨u, hu, hrun⟩, ht⟩

/-- Settles O48: by induction on the budget left, which a launch leaves whole. -/
theorem everyRunEnds : Obligations.EveryRunEnds := by
  refine ⟨fun s hb => exists_ended_of_budget_left (Nat.add_sub_cancel' hb), fun l s hl => ?_⟩
  obtain ⟨-, rfl⟩ := launch_inv hl
  exact exists_ended_of_budget_left (Nat.zero_add _)

/-- A run that is still Running has executed a word at every step. -/
theorem steps_toNat_of_running {n : Nat} {s t : State} (hb : s.steps.toNat ≤ s.budget.toNat)
    (h : Reaches n s t) (ht : t.status = .running) : t.steps.toNat = s.steps.toNat + n := by
  induction n generalizing s with
  | zero => rw [reaches_zero.mp h, Nat.add_zero]
  | succ n ih =>
    rcases stops_or_executes s with ⟨e, he, hrun⟩ | ⟨iw, hx⟩
    · obtain rfl := reaches_unique h (hrun n)
      exact absurd ht he
    · obtain ⟨u, hu, hsteps, -⟩ := step_counts_of_executes hx hb
      rw [ih (step_keeps_steps_le_budget hu hb) ((reaches_succ hu).mp h), hsteps]
      omega

/-- Settles O49: a run still Running after BUDGET steps has spent the budget, so the next step is the
terminating one. -/
theorem exactStepCountUnderBudget : Obligations.ExactStepCountUnderBudget := by
  intro l s t hl hrun ht
  obtain ⟨-, rfl⟩ := launch_inv hl
  obtain ⟨hbudget, -⟩ := reaches_keeps_parameters hrun
  have hsteps : t.steps = (launchState l).budget :=
    BitVec.eq_of_toNat_eq ((steps_toNat_of_running (Nat.zero_le _) hrun ht).trans (Nat.zero_add _))
  have hspent : t.steps = t.budget := hsteps.trans hbudget.symm
  exact ⟨hsteps, reaches_succ_of_step hrun (step_of_terminating ht (.inr hspent))⟩

end Sys2Proof.Machine
end

section
/-!
PROOF. Exceptions (spec/60_exceptions.md R187, R188). An instruction that ends Faulted is the fault entry in the
state it ran in, so nothing it did before the fault is kept; the step ran it in the counted state.
-/

namespace Sys2Proof.Machine

/-- An instruction that ends Faulted has taken a fault entry in the state it ran in: what it read or was about to
write leaves no trace (spec/60_exceptions.md R188). -/
theorem exec_faultEntry_of_faulted {i : Instr} {s t : State} (hs : s.status ≠ .faulted)
    (h : exec i s = .next t) (hf : t.status = .faulted) : ∃ r, t = faultEntry r s := by
  rcases exec_inv h with ⟨o, k, -, -, ht⟩ | ⟨n, -, ht⟩ | hc
  · exact ⟨rangeFault k, ht⟩
  · exact ⟨targetFault n, ht⟩
  · exact absurd hf (hc.not_faulted hs)

/-- A step of a Running state that ends Faulted executed a word and has taken a fault entry in the counted state,
whether the decoder rejected the word or its instruction faulted. -/
theorem step_faultEntry_of_faulted {s t : State} (hr : s.status = .running) (h : step s = .next t)
    (hf : t.status = .faulted) : ∃ iw r, Executes s iw ∧ t = faultEntry r s.countStep := by
  rcases step_inv h with ⟨he, -⟩ | ⟨-, -, rfl⟩ | ⟨iw, r, hx, -, ht⟩ | ⟨iw, i, hx, -, hexec⟩
  · exact absurd hr he
  · rw [State.halt_status] at hf
    cases hf
  · exact ⟨iw, r, hx, ht⟩
  · have hs : s.countStep.status ≠ .faulted := by rw [State.countStep_status, hr]; nofun
    obtain ⟨r, ht⟩ := exec_faultEntry_of_faulted hs hexec hf
    exact ⟨iw, r, hx, ht⟩

/-- Settles O36: the fault entry in the counted state is the whole effect of the step. -/
theorem faultsArePrecise : Obligations.FaultsArePrecise := by
  intro s t hr h hf
  obtain ⟨iw, r, hx, rfl⟩ := step_faultEntry_of_faulted hr h hf
  exact ⟨iw, r.kind, r.info, hx, rfl⟩

end Sys2Proof.Machine
end

section
/-!
PROOF. The launch (spec/70_reset_and_hazards.md R210 to R212). The admission check is the conjunction of the
constraints of R211 as a host reads them, and an admitted launch is the launch over numbers
(`intView_launchState`), so that every element has the number of the item it was set from.
-/

namespace Sys2Proof.Machine

theorem launch_of_admitted {l : LaunchItems} (h : launchAdmitted l = true) :
    launch l = .next (launchState l) :=
  if_pos h

theorem launch_of_not_admitted {l : LaunchItems} (h : ¬ launchAdmitted l = true) :
    launch l = .refused .launchNotAdmitted :=
  if_neg h

/-- Only a budget that the host names can be out of range: the default one fits. -/
theorem fitsBudget_budgetValue_iff {l : LaunchItems} :
    fitsBudget l.budgetValue = true ↔
      ∀ b, l.budget = some b → 0 ≤ b ∧ b ≤ 2 ^ Config.stepW - 1 := by
  rw [fitsBudget_iff, LaunchItems.budgetValue]
  cases l.budget with
  | none => exact iff_of_true (by decide) nofun
  | some b => simp only [Option.getD_some, Option.some.injEq, forall_eq', Int.le_sub_one_iff]

/-- The admission check is the constraints of spec/70_reset_and_hazards.md R211 as numbers. -/
theorem launchAdmitted_iff_constraints {l : LaunchItems} :
    launchAdmitted l = true ↔
      l.init.length ≤ Config.maxLength ∧ l.imem.length ≤ Config.maxLength ∧
        (∀ n ∈ l.init, -2 ^ (Config.xlen - 1) ≤ n ∧ n < 2 ^ (Config.xlen - 1)) ∧
        (∀ b, l.budget = some b → 0 ≤ b ∧ b ≤ 2 ^ Config.stepW - 1) := by
  simp only [launchAdmitted_iff, fitsSigned_iff, fitsBudget_budgetValue_iff]
  exact and_congr_right fun _ => and_left_comm

/-- The registers of an admitted launch hold the initial values. -/
theorem launchState_regs_toInt {l : LaunchItems} (h : launchAdmitted l = true) :
    (launchState l).regs.map BitVec.toInt = l.init :=
  congrArg IntState.regs (intView_launchState h)

/-- The budget of an admitted launch is the host's, or the default. -/
theorem launchState_budget_toNat {l : LaunchItems} (h : launchAdmitted l = true) :
    ((launchState l).budget.toNat : Int) = l.budgetValue := by
  obtain ⟨-, -, -, hbudget⟩ := launchAdmitted_iff.mp h
  obtain ⟨hnonneg, -⟩ := fitsBudget_iff.mp hbudget
  have hb : (launchState l).budget.toNat = l.budgetValue.toNat :=
    congrArg IntState.budget (intView_launchState h)
  rw [hb, Int.toNat_of_nonneg hnonneg]

/-- Settles O38: the launch sets the elements that the launch over numbers has, and an item out of range breaks
its constraint. -/
theorem launchSetsEveryElement : Obligations.LaunchSetsEveryElement := by
  refine fun l => ⟨fun hinit himem hvals hbudget => ?_, fun hbad => launch_of_not_admitted fun hadm => ?_⟩
  · have hadm := launchAdmitted_iff_constraints.mpr ⟨hinit, himem, hvals, hbudget⟩
    have hb := launchState_budget_toNat hadm
    refine ⟨launchState l, launch_of_admitted hadm, launchState_regs_toInt hadm, rfl, rfl, rfl, rfl, rfl, rfl,
      rfl, fun b hsome => ?_, fun hnone => ?_⟩
    · rw [hb, LaunchItems.budgetValue, hsome, Option.getD_some]
    · rw [LaunchItems.budgetValue, hnone, Option.getD_none] at hb
      exact Int.ofNat_inj.mp hb
  · obtain ⟨hinit, himem, hvals, hbudget⟩ := launchAdmitted_iff_constraints.mp hadm
    rcases hbad with hlen | hlen | ⟨n, hn, hout⟩ | ⟨b, hsome, hout⟩
    · exact hlen.not_ge hinit
    · exact hlen.not_ge himem
    · have := hvals n hn
      omega
    · have := hbudget b hsome
      omega

end Sys2Proof.Machine
end

section
/-!
PROOF. The words of an instruction, the other direction (spec/30_encoding.md R73, R89, R91), and their bytes
outside the core (spec/20_memory.md R53). A word is the packing of its fields, so a word whose fields are those of
a canonical word is that word; and the bytes of a number are its digits to the base 256.
-/

namespace Sys2Proof.Machine

/-! ### The encoder's refusal -/

/-- Settles O2: one operand without an encoding is enough for the instruction to have none. -/
theorem encoderRefusesOversizedOperands : Obligations.EncoderRefusesOversizedOperands := by
  rintro i ⟨o, ho, hbig⟩
  have hwf : ¬ i.wf = true := fun h =>
    (Operand.wf_iff.mp (instr_wf_iff.mp h o ho)).not_ge hbig
  rw [encode, if_neg hwf]

/-! ### Canonical words -/

/-- The operand that a mode number and a value field decode to has that mode number and that value field. -/
theorem slot_of_decodeOperand {m : BitVec 2} {v : ValueField} {o : Operand}
    (h : decodeOperand m v = some o) : slotMode (some o) = m ∧ slotValue (some o) = v := by
  have hv : (v.setWidth Config.xlen).setWidth Config.immW = v := by
    apply BitVec.eq_of_toNat_eq
    rw [BitVec.toNat_setWidth, zext_toNat, Nat.mod_eq_of_lt v.isLt]
  rcases decodeOperand_cases m v with ⟨hm, hd⟩ | ⟨hm, hd⟩ | ⟨hm, hd⟩ | ⟨hm, hd⟩ <;>
    rw [hd] at h <;> cases h <;> exact ⟨BitVec.eq_of_toNat_eq hm.symm, hv⟩

/-- The fields of the slots an instruction uses are those of its operands, in slot order; the slots it does not use
are those past its list of operands (spec/30_encoding.md R77, R80). -/
theorem slots_of_decodeForm {op : Opcode} {iw : IWord} {i : Instr} (h : decodeForm op iw = .ok i) :
    (i.operands[0]? = none ∨
      slotMode i.operands[0]? = m1Field iw ∧ slotValue i.operands[0]? = v1Field iw) ∧
    (i.operands[1]? = none ∨
      slotMode i.operands[1]? = m2Field iw ∧ slotValue i.operands[1]? = v2Field iw) := by
  cases op with
  | blank | halt => obtain rfl := Except.ok.inj h; exact ⟨.inl rfl, .inl rfl⟩
  | mov | add | mul | cmp =>
    obtain ⟨o1, o2, h1, h2, rfl⟩ := decodeTwo_eq_ok.mp h
    exact ⟨.inr (slot_of_decodeOperand h1), .inr (slot_of_decodeOperand h2)⟩
  | jmp | jeq | jgt | jlt =>
    obtain ⟨o, ho, rfl⟩ := decodeOne_eq_ok.mp h
    exact ⟨.inr (slot_of_decodeOperand ho), .inl rfl⟩

/-- A slot that is used, or that is unused in a word with zeros there, has the fields of the word. -/
theorem slot_of_zeros_if_unused {l : Option Operand} {m : BitVec 2} {v : ValueField}
    (h : l = none ∨ slotMode l = m ∧ slotValue l = v) (h0 : l = none → m.toNat = 0 ∧ v.toNat = 0) :
    slotMode l = m ∧ slotValue l = v := by
  rcases h with rfl | h
  · obtain ⟨hm, hv⟩ := h0 rfl
    exact ⟨BitVec.eq_of_toNat_eq hm.symm, BitVec.eq_of_toNat_eq (by rw [hv]; rfl)⟩
  · exact h

/-- Settles O3: each field of the word is the field of the canonical word. -/
theorem encodeInvertsDecodeOnCanonicalWords : Obligations.EncodeInvertsDecodeOnCanonicalWords := by
  intro iw i h hslot2 hslot1
  obtain ⟨op, hop, hcnt, hform⟩ := decode_eq_ok.mp h
  have hopcode : opcodeOf i = op := decodeForm_opcode hform
  have hnum : opField iw = opcodeNumber op := (opcodeNumber_of_opcodeOfNumber hop).symm
  have harity : arityOfNumber (opNumber iw) = i.operands.length := by
    rw [opNumber_eq, hnum, arityOfNumber_opcodeNumber, operands_length, hopcode]
  rw [harity, m2Number_eq, v2Number_eq] at hslot2
  rw [harity, m1Number_eq, v1Number_eq] at hslot1
  obtain ⟨h1, h2⟩ := slots_of_decodeForm hform
  obtain ⟨hm1, hv1⟩ := slot_of_zeros_if_unused h1 fun hnone =>
    hslot1 (Nat.le_zero.mp (List.getElem?_eq_none_iff.mp hnone))
  obtain ⟨hm2, hv2⟩ := slot_of_zeros_if_unused h2 fun hnone =>
    hslot2 (List.getElem?_eq_none_iff.mp hnone)
  refine encode_eq_some.mpr ⟨decode_wf h, ?_⟩
  rw [encodeWord, hopcode, ← hnum, ← hcnt, BitVec.ofNat_toNat, BitVec.setWidth_eq, hm1, hm2, hv1, hv2,
    packFields_fields]

/-- Settles O8. -/
theorem sampleWordsDecode : Obligations.SampleWordsDecode :=
  ⟨rfl, rfl, rfl, rfl, rfl, rfl, rfl, rfl⟩

/-! ### The bytes of a word -/

/-- Byte `k` of a word is its digit of weight `256^k`. -/
theorem byte_toNat (iw : IWord) (k : Nat) :
    (iw.extractLsb' (8 * k) 8).toNat = iw.toNat / 256 ^ k % 256 := by
  rw [BitVec.extractLsb'_toNat, Nat.shiftRight_eq_div_pow, pow_mul]
  rfl

/-- The first `n` digits of a number to the base 256, low digit first, give it back modulo `256^n`. -/
theorem natOfBytes_digits {f : Nat → BitVec 8} {x : Nat} (n : Nat)
    (hf : ∀ k, (f k).toNat = x / 256 ^ k % 256) :
    natOfBytes ((List.range n).map f) = x % 256 ^ n := by
  induction n generalizing f x with
  | zero => simp [natOfBytes, Nat.mod_one]
  | succ n ih =>
    have hshift : ∀ k, (f (k + 1)).toNat = x / 256 / 256 ^ k % 256 := fun k => by
      rw [hf, pow_succ', Nat.div_div_eq_div_mul]
    have htail : natOfBytes ((List.range n).map fun k => f (k + 1)) = x / 256 % 256 ^ n := ih hshift
    have hhead : (f 0).toNat = x % 256 := by rw [hf, pow_zero, Nat.div_one]
    rw [List.range_succ_eq_map, List.map_cons, List.map_map, natOfBytes, hhead, pow_succ', Nat.mod_mul]
    exact congrArg (x % 256 + 256 * ·) htail

/-- The bytes of a word hold all its bits. -/
theorem two_pow_ilen_le_bytes : 2 ^ Config.ilen ≤ 256 ^ Config.wordBytes := by
  rw [show (256 : Nat) = 2 ^ 8 from rfl, ← pow_mul]
  exact Nat.pow_le_pow_right (by decide) (by decide)

/-- Settles O9: the bytes are the digits of the word's number. -/
theorem wordBytesAreLittleEndian : Obligations.WordBytesAreLittleEndian := by
  refine fun iw => ⟨by simp [bytesOfWord], fun k hk => ?_, ?_⟩
  · exact ⟨_, by simp [bytesOfWord, hk], byte_toNat iw k⟩
  · have hlt : iw.toNat < 256 ^ Config.wordBytes := iw.isLt.trans_le two_pow_ilen_le_bytes
    rw [wordOfBytes, bytesOfWord, natOfBytes_digits _ (byte_toNat iw), Nat.mod_eq_of_lt hlt,
      BitVec.ofNat_toNat, BitVec.setWidth_eq]

end Sys2Proof.Machine
end

section
/-!
PROOF. The operand resolver as a whole (spec/40_register_file_and_operands.md sections 2 and 3), and the register a
MOV wrote as the next instruction sees it (spec/70_reset_and_hazards.md section 4).
-/

namespace Sys2Proof.Machine

/-! ### An operand reads or fails -/

theorem reads_unique {s : State} {o : Operand} {v w : Word} (hv : Reads s o v) (hw : Reads s o w) : w = v :=
  Except.ok.inj ((resolveRead_of_reads hw).symm.trans (resolveRead_of_reads hv))

theorem unresolvable_unique {s : State} {o : Operand} {j k : Word} (hk : Unresolvable s o k)
    (hj : Unresolvable s o j) : j = k := by
  have he := (resolveRead_of_unresolvable hj).symm.trans (resolveRead_of_unresolvable hk)
  exact congrArg Raise.info (Except.error.inj he)

theorem not_unresolvable_of_reads {s : State} {o : Operand} {k v : Word} (hv : Reads s o v) :
    ¬ Unresolvable s o k := fun hk =>
  nomatch (resolveRead_of_reads hv).symm.trans (resolveRead_of_unresolvable hk)

/-- Settles O14: the answers of the resolver are determined, so an operand has one value or one failing index. -/
theorem operandReadsOrFails : Obligations.OperandReadsOrFails := by
  refine fun s o => ⟨fun v => resolveRead_eq_ok, fun r => resolveRead_eq_error,
    fun w t => resolveWrite_eq_ok, fun w r => resolveWrite_eq_error, ?_⟩
  rcases reads_or_unresolvable s o with ⟨v, hv⟩ | ⟨k, hk⟩
  · exact .inl ⟨⟨v, hv, fun _ => reads_unique hv⟩, fun _ => not_unresolvable_of_reads hv⟩
  · exact .inr ⟨⟨k, hk, fun _ => unresolvable_unique hk⟩, fun _ hv => not_unresolvable_of_reads hv hk⟩

/-! ### The register a MOV wrote -/

/-- Settles O20: the register named holds the value written, whatever role it has in the next instruction. -/
theorem writtenRegisterIsReadNext : Obligations.WrittenRegisterIsReadNext := by
  intro s dst src a v hd hr
  obtain ⟨w, hw⟩ := names_holds hd
  have hself : Holds { s with regs := s.regs.set a.toNat v, pc := s.pc + 1 } a v := holds_set_self v hw
  exact ⟨_, execMov_of_names hd hr, hself, fun b hb => ⟨v, hself, hb⟩,
    takeJump_of_reads (target := .reg a) hself⟩

end Sys2Proof.Machine
end

section
/-!
PROOF. What a step depends on (spec/43_fetch_execute_engine.md section 2), and the word the host places
(assumption 4). No operation of an instruction reads the instruction store, so replacing the store commutes with
each of them (`_withStore`); the step itself reads the word at the pc and the length.
-/

namespace Sys2Proof.Machine

/-- Settles O34. -/
theorem everyStateHasANextState : Obligations.EveryStateHasANextState := step_next

/-- Settles O31: the counted state is the one the instruction runs in. -/
theorem stepRunsTheDecodedInstruction : Obligations.StepRunsTheDecodedInstruction :=
  fun _ _ _ hx hd => step_of_decoded hx hd

/-! ### The instruction store -/

/-- The state with another instruction store. -/
def State.withStore (store : List IWord) (s : State) : State := { s with imem := store }

section
variable (store : List IWord) (s : State)

@[simp] theorem resolveRead_withStore (o : Operand) :
    resolveRead (s.withStore store) o = resolveRead s o := by
  cases o <;> rfl

/-- A first stage that replacing the store leaves alone, before a second that commutes with it. -/
theorem bind_withStore {α : Type} {x : Except Raise α} {f f' : α → Except Raise State}
    (hf : ∀ a, f' a = (f a).map (State.withStore store)) :
    x >>= f' = (x >>= f).map (State.withStore store) := by
  cases x with
  | error r => rfl
  | ok a => exact hf a

theorem regWrite_withStore (i v : Word) :
    regWrite (s.withStore store) i v = (regWrite s i v).map (State.withStore store) := by
  have hrange : inRange (s.withStore store) i = inRange s i := rfl
  simp only [regWrite, hrange]
  cases inRange s i <;> rfl

theorem resolveWrite_withStore (v : Word) (o : Operand) :
    resolveWrite (s.withStore store) v o = (resolveWrite s v o).map (State.withStore store) := by
  cases o with
  | imm n => rfl
  | reg idx => exact regWrite_withStore store s idx v
  | ptr idx => exact bind_withStore store fun a => regWrite_withStore store s a v

/-- The end of a data instruction: the write, then the pc. -/
theorem resolveWrite_advance_withStore (v : Word) (o : Operand) :
    (resolveWrite (s.withStore store) v o >>= fun t => .ok t.advance) =
      (resolveWrite s v o >>= fun t => .ok t.advance).map (State.withStore store) := by
  rw [resolveWrite_withStore]
  cases resolveWrite s v o <;> rfl

theorem readModifyWrite_withStore (f : Word → Word → Word) (dst src : Operand) :
    readModifyWrite f dst src (s.withStore store) =
      (readModifyWrite f dst src s).map (State.withStore store) := by
  simp only [readModifyWrite, resolveRead_withStore]
  exact bind_withStore store fun a => bind_withStore store fun b =>
    resolveWrite_advance_withStore store s (f a b) dst

theorem takeJump_withStore (target : Operand) :
    takeJump target (s.withStore store) = (takeJump target s).map (State.withStore store) := by
  simp only [takeJump, resolveRead_withStore]
  exact bind_withStore store fun t => rfl

theorem conditionalJump_withStore (want : ComparisonFlag) (target : Operand) :
    conditionalJump want target (s.withStore store) =
      (conditionalJump want target s).map (State.withStore store) := by
  by_cases hf : s.flag = want
  · rw [conditionalJump_of_taken hf, conditionalJump_of_taken (s := s.withStore store) hf]
    exact takeJump_withStore store s target
  · rw [conditionalJump_of_not_taken hf, conditionalJump_of_not_taken (s := s.withStore store) hf]
    rfl

theorem settle_withStore {r : Except Raise State} {t : State} (h : settle s r = .next t) :
    settle (s.withStore store) (r.map (State.withStore store)) = .next (t.withStore store) := by
  cases r <;> obtain rfl := Host.Outcome.next.inj h <;> rfl

/-- No instruction reads the store, and each keeps it. -/
theorem exec_withStore {i : Instr} {t : State} (h : exec i s = .next t) :
    exec i (s.withStore store) = .next (t.withStore store) := by
  cases i with
  | blank | halt => obtain rfl := Host.Outcome.next.inj h; rfl
  | mov dst src =>
    rw [← settle_withStore store s h]
    refine congrArg (settle _) ?_
    rw [resolveRead_withStore]
    exact bind_withStore store fun v => resolveWrite_advance_withStore store s v dst
  | add dst src | mul dst src =>
    exact (congrArg _ (readModifyWrite_withStore store s _ dst src)).trans (settle_withStore store s h)
  | cmp op1 op2 =>
    rw [← settle_withStore store s h]
    refine congrArg (settle _) ?_
    rw [resolveRead_withStore, resolveRead_withStore]
    exact bind_withStore store fun a => bind_withStore store fun b => rfl
  | jmp o => exact (congrArg _ (takeJump_withStore store s o)).trans (settle_withStore store s h)
  | jeq o | jgt o | jlt o =>
    exact (congrArg _ (conditionalJump_withStore store s _ o)).trans (settle_withStore store s h)

end

/-- Settles O35: the length decides the termination test, the word at the pc what is executed. -/
theorem onlyTheFetchedWordMatters : Obligations.OnlyTheFetchedWordMatters := by
  intro s t store hlen hword h
  have hout : PcOutside s → PcOutside (s.withStore store) := fun hp =>
    hp.imp id fun hle => (congrArg Int.ofNat hlen).trans_le hle
  have hexec : ∀ {iw}, Executes s iw → Executes (s.withStore store) iw :=
    fun ⟨hr, hb, h0, hw⟩ => ⟨hr, hb, h0, hword.trans hw⟩
  change step (s.withStore store) = .next (t.withStore store)
  rcases step_inv h with ⟨he, rfl⟩ | ⟨hr, hstop, rfl⟩ | ⟨iw, r, hx, hd, rfl⟩ | ⟨iw, i, hx, hd, he⟩
  · exact step_of_ended he
  · exact step_of_terminating hr (hstop.imp hout id)
  · exact step_of_malformed (hexec hx) hd
  · exact (step_of_decoded (hexec hx) hd).trans (exec_withStore store s.countStep he)

/-! ### The placed word -/

theorem makeRunning_status (s : State) : (makeRunning s).status = .running := by
  unfold makeRunning
  cases h : s.status with
  | running => exact h
  | halted | faulted => rfl

theorem makeBudget_status (s : State) : (makeBudget s).status = s.status := by
  unfold makeBudget
  split <;> rfl

/-- A spent budget is renewed: the count starts again below a budget that is not 0. -/
theorem makeBudget_steps_ne_budget (s : State) : (makeBudget s).steps ≠ (makeBudget s).budget := by
  unfold makeBudget
  by_cases hspent : s.steps = s.budget
  · rw [if_pos hspent]
    by_cases hzero : s.budget = 0
    · simp only [if_pos hzero]
      decide
    · simp only [if_neg hzero]
      exact Ne.symm hzero
  · rwa [if_neg hspent]

theorem makeIndex_status (s : State) : (makeIndex s).status = s.status := by
  unfold makeIndex
  split <;> rfl

theorem makeIndex_steps (s : State) : (makeIndex s).steps = s.steps := by
  unfold makeIndex
  split <;> rfl

theorem makeIndex_budget (s : State) : (makeIndex s).budget = s.budget := by
  unfold makeIndex
  split <;> rfl

theorem makeIndex_pc_nonneg (s : State) : 0 ≤ (makeIndex s).pc.toInt := by
  unfold makeIndex
  split
  · exact show (0 : Int) ≤ (0 : Word).toInt by decide
  · exact Int.not_lt.mp ‹_›

/-- What `putWord` leaves before the word is as long as the index, so the word stands at the index. -/
theorem getElem?_putWord (store : List IWord) (a : Nat) (iw : IWord) : (putWord store a iw)[a]? = some iw := by
  have hlen : (store.take a ++ List.replicate (a - store.length) 0).length = a := by
    simp only [List.length_append, List.length_take, List.length_replicate]
    omega
  rw [putWord, List.getElem?_append_right hlen.le, hlen, Nat.sub_self, List.getElem?_cons_zero]

/-- Settles O42: each part of placing a word establishes one condition of `Executes` and keeps those before it. -/
theorem placedWordIsExecuted : Obligations.PlacedWordIsExecuted := by
  intro s nbits w
  refine ⟨?_, ?_, makeIndex_pc_nonneg _, getElem?_putWord _ _ _⟩
  · exact (makeIndex_status _).trans ((makeBudget_status _).trans (makeRunning_status s))
  · have hne := makeBudget_steps_ne_budget (makeRunning s)
    rwa [← makeIndex_steps, ← makeIndex_budget] at hne

end Sys2Proof.Machine
end

section
/-!
PROOF. From text to words (spec/30_encoding.md R86 to R89). Each field of an assembled word is what the line's
tokens give, so the word meets the conditions under which the decoder rejects it (`illegalWordsFault`).
-/

namespace Sys2Proof.Machine

/-! ### A line of separators -/

/-- Separators before, between and after tokens add no token. -/
theorem tokens_of_separators {line : List Char} (h : ∀ c ∈ line, isSeparator c = true) : tokens line = [] := by
  rw [tokens]
  induction line with
  | nil => rfl
  | cons c cs ih =>
    obtain ⟨hc, hcs⟩ := List.forall_mem_cons.mp h
    rw [tokensFrom, if_pos hc, ih hcs]
    rfl

/-- Settles O43: such a line has no token. -/
theorem separatorLineAssemblesToBlank : Obligations.SeparatorLineAssemblesToBlank := by
  refine fun line h => ⟨?_, rfl⟩
  rw [assemble, tokens_of_separators h]

/-! ### The fields of an assembled word -/

/-- A line with a token that assembles is the packing of its opcode, its operand count and its two slots. -/
theorem assemble_eq_some {line t : List Char} {ts : List (List Char)} {iw : IWord}
    (ht : tokens line = t :: ts) (h : assemble line = some iw) :
    ∃ m1 v1 m2 v2, assembleSlot ts[0]? = some (m1, v1) ∧ assembleSlot ts[1]? = some (m2, v2) ∧
      iw = packFields (assembleOpcode t) (BitVec.ofNat 2 (min ts.length 3)) m1 m2 v1 v2 := by
  rw [assemble, ht] at h
  obtain ⟨⟨m1, v1⟩, h1, h⟩ := Option.bind_eq_some_iff.mp h
  obtain ⟨⟨m2, v2⟩, h2, h⟩ := Option.bind_eq_some_iff.mp h
  exact ⟨m1, v1, m2, v2, h1, h2, (Option.some.inj h).symm⟩

/-- A mode letter gives no mode 3. -/
theorem modeOfLetter_ne_three {c : Char} {m : BitVec 2} (h : modeOfLetter c = some m) : m.toNat ≠ 3 := by
  unfold modeOfLetter at h
  split_ifs at h <;> obtain rfl := Option.some.inj h <;> decide

theorem operandToken_mode_ne_three {tok : List Char} {m : BitVec 2} {n : Nat}
    (h : operandToken tok = some (m, n)) : m.toNat ≠ 3 := by
  match tok with
  | [] | [_] => cases h
  | c :: d :: ds =>
    rw [operandToken] at h
    cases hm : modeOfLetter c with
    | none => simp [hm] at h
    | some m' =>
      cases hn : digitsValue 0 (d :: ds) with
      | none => simp [hm, hn] at h
      | some n' =>
        simp only [hm, hn, Option.some.injEq, Prod.mk.injEq] at h
        obtain ⟨rfl, -⟩ := h
        exact modeOfLetter_ne_three hm

/-- A slot of an assembled word has mode 3 exactly when its token is malformed (spec/30_encoding.md R88, R89). -/
theorem assembleSlot_mode {tok : List Char} {m : BitVec 2} {v : ValueField}
    (h : assembleSlot (some tok) = some (m, v)) : m.toNat = 3 ↔ operandToken tok = none := by
  rw [assembleSlot] at h
  cases htok : operandToken tok with
  | none =>
    rw [htok] at h
    obtain ⟨rfl, -⟩ := Prod.mk.inj (Option.some.inj h)
    exact iff_of_true rfl rfl
  | some p =>
    obtain ⟨m', n⟩ := p
    simp only [htok, Option.ite_none_right_eq_some, Option.some.injEq, Prod.mk.injEq] at h
    obtain ⟨-, rfl, -⟩ := h
    exact iff_of_false (operandToken_mode_ne_three htok) nofun

/-! ### The numbers of an assembled word -/

section
variable {t : List Char} {ts : List (List Char)} {m1 m2 : BitVec 2} {v1 v2 : ValueField} {iw : IWord}
  (hiw : iw = packFields (assembleOpcode t) (BitVec.ofNat 2 (min ts.length 3)) m1 m2 v1 v2)
include hiw

theorem opNumber_of_unknown_mnemonic (ht : opcodeOfMnemonic t = none) : opNumber iw = 15 := by
  rw [opNumber_eq, hiw, opField_packFields, assembleOpcode, ht]
  rfl

theorem opNumber_of_mnemonic {op : Opcode} (ht : opcodeOfMnemonic t = some op) :
    opNumber iw = (opcodeNumber op).toNat := by
  rw [opNumber_eq, hiw, opField_packFields, assembleOpcode, ht]

theorem opNumber_le_nine_of_mnemonic {op : Opcode} (ht : opcodeOfMnemonic t = some op) : opNumber iw ≤ 9 := by
  rw [opNumber_of_mnemonic hiw ht]
  cases op <;> decide

theorem arityOfNumber_of_mnemonic {op : Opcode} (ht : opcodeOfMnemonic t = some op) :
    arityOfNumber (opNumber iw) = arity op := by
  rw [opNumber_of_mnemonic hiw ht, arityOfNumber_opcodeNumber]

theorem cntNumber_of_assembled : cntNumber iw = min ts.length 3 := by
  rw [cntNumber_eq, hiw, cntField_packFields, BitVec.toNat_ofNat]
  omega

/-- The operand count of an assembled word is its opcode's arity exactly when the line has as many operand tokens:
counts above 3 become 3, which is no arity. -/
theorem cntNumber_eq_arity_iff {op : Opcode} (ht : opcodeOfMnemonic t = some op) :
    cntNumber iw = arityOfNumber (opNumber iw) ↔ ts.length = arity op := by
  have := arity_le_two op
  rw [cntNumber_of_assembled hiw, arityOfNumber_of_mnemonic hiw ht]
  omega

theorem m1Number_of_assembled : m1Number iw = m1.toNat := by
  rw [m1Number_eq, hiw, m1Field_packFields]

theorem m2Number_of_assembled : m2Number iw = m2.toNat := by
  rw [m2Number_eq, hiw, m2Field_packFields]

end

/-- Settles O44: the assembled fields are those of a word the decoder rejects, clause by clause. -/
theorem malformedTextFaultsAsItsText : Obligations.MalformedTextFaultsAsItsText := by
  intro line t ts iw ht h
  obtain ⟨m1, v1, m2, v2, h1, h2, hiw⟩ := assemble_eq_some ht h
  obtain ⟨hunknown, harity, hslot1, hslot2⟩ := illegalWordsFault iw
  refine ⟨fun hnone => ?_, fun op hop hlen => ?_, fun op t1 rest hop hlen hts htok => ?_,
    fun op t1 t2 hop hlen hts htok1 htok2 => ?_⟩
  · have h15 := opNumber_of_unknown_mnemonic hiw hnone
    have hfault := hunknown (by omega)
    rwa [h15] at hfault
  · rw [← cntNumber_of_assembled hiw]
    exact harity (opNumber_le_nine_of_mnemonic hiw hop) ((cntNumber_eq_arity_iff hiw hop).not.mpr hlen)
  · subst hts
    refine hslot1 (opNumber_le_nine_of_mnemonic hiw hop) ((cntNumber_eq_arity_iff hiw hop).mpr hlen) ?_ ?_
    · rw [arityOfNumber_of_mnemonic hiw hop, ← hlen]
      exact Nat.succ_pos _
    · rw [m1Number_of_assembled hiw, assembleSlot_mode h1]
      exact htok
  · subst hts
    refine hslot2 (opNumber_le_nine_of_mnemonic hiw hop) ((cntNumber_eq_arity_iff hiw hop).mpr hlen) ?_ ?_ ?_
    · rw [arityOfNumber_of_mnemonic hiw hop, ← hlen]
      rfl
    · rw [m1Number_of_assembled hiw, Ne, assembleSlot_mode h1]
      exact htok1
    · rw [m2Number_of_assembled hiw, assembleSlot_mode h2]
      exact htok2

end Sys2Proof.Machine
end

section
/-!
PROOF. The state after reset and the read-out (spec/10_state.md sections 5 and 7, spec/70_reset_and_hazards.md
R210, R214), and the invariant of the run: it holds of every launched state, of the state after reset, which is
one, and every step keeps it.
-/

namespace Sys2Proof.Machine

/-! ### Reset and read-out -/

theorem launch_reset : launch { init := List.replicate 16 0, imem := [], budget := none } = .next State.reset :=
  rfl

/-- Settles O39. -/
theorem resetIsALaunch : Obligations.ResetIsALaunch :=
  ⟨launch_reset, rfl, rfl, rfl, rfl, rfl, rfl, rfl⟩

theorem readOut_of_running {s : State} (h : s.status = .running) :
    readOut s = .refused .readOutWhileRunning :=
  if_pos h

theorem readOut_of_ended {s : State} (h : Ended s) :
    readOut s = .next
      { status := statusCode s.status, errKind := errKindCode s.errKind, errInfo := s.errInfo,
        regs := s.regs, pc := s.pc, flag := flagCode s.flag, steps := s.steps } :=
  if_neg h

/-- Settles O40: the codes are those of the read-out, value by value. -/
theorem readOutAfterTheRun : Obligations.ReadOutAfterTheRun := by
  refine fun s => ⟨readOut_of_running, fun he => ⟨_, readOut_of_ended he, rfl, rfl, rfl, rfl, ?_, ?_, ?_⟩⟩
  · cases s.status <;> rfl
  · cases s.flag <;> rfl
  · rcases s.errKind with _ | k
    · rfl
    · cases k <;> rfl

/-! ### The invariant at the start of a run -/

/-- A state that has not faulted satisfies the invariant when its sizes are admitted, its counter is within the
budget and its fault record is empty. -/
theorem inv_of_no_fault {s : State} (hwf : Memory.wf s = true) (hsteps : s.steps.toNat ≤ s.budget.toNat)
    (hstatus : s.status ≠ .faulted) (hkind : s.errKind = none) (hinfo : s.errInfo = 0) : Inv s := by
  obtain ⟨hregs, hstore⟩ := memory_wf_iff.mp hwf
  refine ⟨hregs, hstore, hsteps, iff_of_false (not_not.mpr hkind) hstatus, fun _ => hinfo, fun k hk => ?_⟩
  rw [hkind] at hk
  cases hk

/-- Settles O46: an admitted launch has admitted sizes, and its other elements are the initial ones. -/
theorem invariantHoldsAtLaunch : Obligations.InvariantHoldsAtLaunch := by
  intro l s h
  obtain ⟨hadm, rfl⟩ := launch_inv h
  obtain ⟨hinit, -, himem, -⟩ := launchAdmitted_iff.mp hadm
  have hwf : Memory.wf (launchState l) = true :=
    memory_wf_iff.mpr ⟨(List.length_map _).trans_le hinit, himem⟩
  exact inv_of_no_fault hwf (Nat.zero_le _) nofun rfl rfl

/-- Settles O45: the state after reset is launched. -/
theorem invariantHoldsAtReset : Obligations.InvariantHoldsAtReset :=
  invariantHoldsAtLaunch _ _ launch_reset

/-! ### The fault record -/

/-- The three faults of the decoder. -/
def IsDecodeFault (k : FaultKind) : Prop :=
  k = .invalidOperandFormat ∨ k = .unknownOpcode ∨ k = .arityMismatch

/-- The decoder raises its own faults only (spec/30_encoding.md R81 to R83). -/
theorem decode_error_kind {iw : IWord} {r : Raise} (h : decode iw = .error r) : IsDecodeFault r.kind := by
  by_cases h9 : opNumber iw ≤ 9
  · by_cases hc : cntNumber iw = arityOfNumber (opNumber iw)
    · rcases arityOfNumber_cases (opNumber iw) with ha | ha | ha
      · rw [decode_of_arity_zero h9 hc ha (.imm 0) (.imm 0)] at h
        cases h
      · rw [decode_of_arity_one h9 hc ha (.imm 0)] at h
        split_ifs at h
        obtain rfl := Except.error.inj h
        exact .inl rfl
      · rw [decode_of_arity_two h9 hc ha] at h
        split_ifs at h <;> obtain rfl := Except.error.inj h <;> exact .inl rfl
    · rw [decode_of_wrong_count h9 hc] at h
      obtain rfl := Except.error.inj h
      exact .inr (.inr rfl)
  · rw [decode_of_unknown_opcode (Nat.lt_of_not_le h9)] at h
    obtain rfl := Except.error.inj h
    exact .inr (.inl rfl)

theorem outOfBounds_of_unresolvable {s : State} {o : Operand} {k : Word} (h : Unresolvable s o k) :
    OutOfBounds s k := by
  cases o with
  | imm n => exact h.elim
  | reg idx => obtain ⟨rfl, hout⟩ := h; exact hout
  | ptr idx => rcases h with ⟨rfl, hout⟩ | ⟨-, hout⟩ <;> exact hout

section
variable {s : State} {iw : IWord} (hf : Fetches s iw)
include hf

/-- A decode fault is explained by the word the decoder rejected. -/
theorem explains_of_malformed {r : Raise} (hd : decode iw = .error r) :
    Explains (faultEntry r s) r.kind r.info := by
  obtain ⟨k, info⟩ := r
  rcases decode_error_kind hd with rfl | rfl | rfl <;> exact ⟨iw, hf, hd⟩

/-- An index fault is explained by the operand that met the index. -/
theorem explains_of_unresolvable {i : Instr} {o : Operand} {k : Word} (hd : decode iw = .ok i)
    (ho : o ∈ i.operands) (hk : Unresolvable s o k) :
    Explains (faultEntry (rangeFault k) s) .registerOutOfRange k :=
  ⟨outOfBounds_of_unresolvable hk, iw, i, o, hf, hd, ho, hk⟩

/-- A write fault is explained by the immediate destination. -/
theorem explains_of_writesImmediate {i : Instr} {n : Word} (hd : decode iw = .ok i)
    (hw : WritesImmediate i n) : Explains (faultEntry (targetFault n) s) .invalidWriteTarget n := by
  obtain ⟨src, rfl | rfl | rfl⟩ := hw
  · exact ⟨iw, src, hf, .inl hd⟩
  · exact ⟨iw, src, hf, .inr (.inl hd)⟩
  · exact ⟨iw, src, hf, .inr (.inr hd)⟩

end

/-- An instruction that completes does not touch the fault record (spec/60_exceptions.md R189). -/
theorem Completes.keeps_fault_record {i : Instr} {s t : State} (hc : Completes i s t) :
    t.errKind = s.errKind ∧ t.errInfo = s.errInfo := by
  cases i with
  | blank | halt => obtain rfl := hc; exact ⟨rfl, rfl⟩
  | mov dst src => obtain ⟨a, v, -, -, rfl⟩ := hc; exact ⟨rfl, rfl⟩
  | add dst src | mul dst src => obtain ⟨a, x, y, -, -, -, rfl⟩ := hc; exact ⟨rfl, rfl⟩
  | cmp op1 op2 => obtain ⟨x, y, -, -, rfl⟩ := hc; exact ⟨rfl, rfl⟩
  | jmp o => obtain ⟨v, -, rfl⟩ := hc; exact ⟨rfl, rfl⟩
  | jeq o | jgt o | jlt o => rcases hc with ⟨v, -, -, rfl⟩ | ⟨-, rfl⟩ <;> exact ⟨rfl, rfl⟩

/-- A Running state of the invariant has an empty fault record (spec/10_state.md R34, R35). -/
theorem Inv.no_fault_of_running {s : State} (hs : Inv s) (hr : s.status = .running) :
    s.errKind = none ∧ s.errInfo = 0 := by
  have hkind : s.errKind = none := by
    by_contra hk
    have hf := hs.fault_recorded.mp hk
    rw [hr] at hf
    cases hf
  exact ⟨hkind, hs.no_fault_no_info hkind⟩

/-! ### The invariant along a step -/

/-- A state that has just taken a fault satisfies the invariant when its sizes are admitted, its counter is within
the budget and the fault is explained by the word at its pc. -/
theorem inv_faultEntry {s : State} {r : Raise} (hwf : Memory.wf (faultEntry r s) = true)
    (hsteps : (faultEntry r s).steps.toNat ≤ (faultEntry r s).budget.toNat)
    (hexp : Explains (faultEntry r s) r.kind r.info) : Inv (faultEntry r s) := by
  obtain ⟨hregs, hstore⟩ := memory_wf_iff.mp hwf
  refine ⟨hregs, hstore, hsteps, iff_of_true nofun rfl, nofun, fun k hk => ?_⟩
  obtain rfl := Option.some.inj hk
  exact hexp

/-- A step keeps the sizes (spec/10_state.md R38). -/
theorem step_keeps_memory_wf {s t : State} (h : step s = .next t) : Memory.wf t = Memory.wf s := by
  obtain ⟨-, himem, -, hregs⟩ := runParametersNeverChange s t h
  simp only [Memory.wf, State.registerCount, State.instructionCount, himem, hregs]

/-- Settles O47: what a step changes of the fault record it explains by the word it executed, in a state whose
record was empty. -/
theorem invariantKeptByEveryStep : Obligations.InvariantKeptByEveryStep := by
  intro s t hs h
  have hwf : Memory.wf t = true :=
    (step_keeps_memory_wf h).trans (memory_wf_iff.mpr ⟨hs.registers_bounded, hs.store_bounded⟩)
  have hsteps := step_keeps_steps_le_budget h hs.steps_bounded
  rcases step_inv h with ⟨-, rfl⟩ | ⟨hr, -, rfl⟩ | ⟨iw, r, ⟨-, -, hf⟩, hd, rfl⟩ | ⟨iw, i, ⟨hr, -, hf⟩, hd, he⟩
  · exact hs
  · obtain ⟨hkind, hinfo⟩ := hs.no_fault_of_running hr
    exact inv_of_no_fault hwf hsteps nofun hkind hinfo
  · exact inv_faultEntry hwf hsteps (explains_of_malformed (s := s.countStep) hf hd)
  · rcases exec_inv he with ⟨o, k, ho, hk, rfl⟩ | ⟨n, hw, rfl⟩ | hc
    · exact inv_faultEntry hwf hsteps (explains_of_unresolvable (s := s.countStep) hf hd ho hk)
    · exact inv_faultEntry hwf hsteps (explains_of_writesImmediate (s := s.countStep) hf hd hw)
    · obtain ⟨hkind, hinfo⟩ := hs.no_fault_of_running hr
      obtain ⟨hkind', hinfo'⟩ := hc.keeps_fault_record
      have hstatus : t.status ≠ .faulted :=
        hc.not_faulted (by rw [State.countStep_status, hr]; nofun)
      exact inv_of_no_fault hwf hsteps hstatus (hkind'.trans hkind) (hinfo'.trans hinfo)

end Sys2Proof.Machine
end

section
/-!
PROOF. The encoding for any `IMM_W` (spec/30_encoding.md R73, R91). The canonical word is the sum of its six fields
at their weights (`intPack`); each field is read back by the decoder's own division, and the sum is below
`2^(10 + 2*IMM_W)`.
-/

namespace Sys2Proof.Machine

/-! ### A word as the sum of its fields -/

/-- `{ v2, v1, m2, m1, cnt, op }` as a number (spec/30_encoding.md R73). -/
def intPack (immW op cnt m1 m2 v1 v2 : Nat) : Nat :=
  op + 16 * cnt + 64 * m1 + 256 * m2 + 1024 * v1 + 2 ^ (10 + immW) * v2

section
variable {immW op cnt m1 m2 v1 v2 : Nat} (hop : op < 16) (hcnt : cnt < 4) (hm1 : m1 < 4) (hm2 : m2 < 4)
  (hv1 : v1 < 2 ^ immW) (hv2 : v2 < 2 ^ immW)

include hop in
theorem intPack_op : intPack immW op cnt m1 m2 v1 v2 % 16 = op := by
  rw [intPack, two_pow_ten_add, Nat.mul_assoc]
  omega

include hop hcnt in
theorem intPack_cnt : intPack immW op cnt m1 m2 v1 v2 / 16 % 4 = cnt := by
  rw [intPack, two_pow_ten_add, Nat.mul_assoc]
  omega

include hop hcnt hm1 in
theorem intPack_m1 : intPack immW op cnt m1 m2 v1 v2 / 64 % 4 = m1 := by
  rw [intPack, two_pow_ten_add, Nat.mul_assoc]
  omega

include hop hcnt hm1 hm2 in
theorem intPack_m2 : intPack immW op cnt m1 m2 v1 v2 / 256 % 4 = m2 := by
  rw [intPack, two_pow_ten_add, Nat.mul_assoc]
  omega

include hop hcnt hm1 hm2 in
/-- Above the ten low bits there are the two value fields. -/
theorem intPack_div : intPack immW op cnt m1 m2 v1 v2 / 1024 = v1 + 2 ^ immW * v2 := by
  rw [intPack, two_pow_ten_add, Nat.mul_assoc]
  omega

include hop hcnt hm1 hm2 hv1 in
theorem intPack_v1 : intPack immW op cnt m1 m2 v1 v2 / 1024 % 2 ^ immW = v1 := by
  rw [intPack_div hop hcnt hm1 hm2, Nat.add_mul_mod_self_left, Nat.mod_eq_of_lt hv1]

include hop hcnt hm1 hm2 hv1 hv2 in
theorem intPack_v2 : intPack immW op cnt m1 m2 v1 v2 / 2 ^ (10 + immW) % 2 ^ immW = v2 := by
  rw [two_pow_ten_add, ← Nat.div_div_eq_div_mul, intPack_div hop hcnt hm1 hm2,
    Nat.add_mul_div_left _ _ (Nat.two_pow_pos _), Nat.div_eq_of_lt hv1, Nat.zero_add, Nat.mod_eq_of_lt hv2]

include hop hcnt hm1 hm2 hv1 hv2 in
/-- The fields have no other bits above them. -/
theorem intPack_lt : intPack immW op cnt m1 m2 v1 v2 < 2 ^ (10 + 2 * immW) := by
  have hvalues : v1 + 2 ^ immW * v2 < 2 ^ immW * 2 ^ immW := by
    calc v1 + 2 ^ immW * v2 < 2 ^ immW * (v2 + 1) := by rw [Nat.mul_succ]; omega
      _ ≤ 2 ^ immW * 2 ^ immW := Nat.mul_le_mul_left _ hv2
  rw [← intPack_div hop hcnt hm1 hm2] at hvalues
  rw [pow_add, Nat.two_mul, pow_add]
  omega

end

/-! ### The encoder on the slots -/

/-- The mode number of a slot, 0 where there is no operand (spec/30_encoding.md R91). -/
def intSlotMode : Option IntOperand → Nat
  | none => 0
  | some o => o.mode

/-- The value field of a slot, 0 where there is no operand (spec/30_encoding.md R91). -/
def intSlotValue : Option IntOperand → Nat
  | none => 0
  | some o => o.value

theorem intSlotMode_lt (l : Option IntOperand) : intSlotMode l < 4 := by
  rcases l with _ | o
  · decide
  · cases o <;> simp [intSlotMode, IntOperand.mode]

theorem intSlotValue_lt {immW k : Nat} {l : List IntOperand} (h : ∀ o ∈ l, o.value < 2 ^ immW) :
    intSlotValue l[k]? < 2 ^ immW := by
  cases hk : l[k]? with
  | none => exact Nat.two_pow_pos immW
  | some o => exact h o (List.mem_of_getElem? hk)

/-- The canonical word is packed from the operand count and the two slots. -/
theorem intEncodeFields_eq_pack (immW op : Nat) {l : List IntOperand} (hl : l.length ≤ 2) :
    intEncodeFields immW op l =
      intPack immW op l.length (intSlotMode l[0]?) (intSlotMode l[1]?) (intSlotValue l[0]?)
        (intSlotValue l[1]?) := by
  match l with
  | [] => simp [intEncodeFields, intPack, intSlotMode, intSlotValue]
  | [o1] => simp [intEncodeFields, intPack, intSlotMode, intSlotValue]
  | [o1, o2] => simp [intEncodeFields, intPack, intSlotMode, intSlotValue]
  | _ :: _ :: _ :: _ => simp at hl

/-! ### The decoder on a canonical word -/

/-- The opcode of an instruction over numbers. -/
def IntInstr.opcode : IntInstr → Opcode
  | .blank => .blank
  | .mov _ _ => .mov
  | .add _ _ => .add
  | .mul _ _ => .mul
  | .cmp _ _ => .cmp
  | .jmp _ => .jmp
  | .jeq _ => .jeq
  | .jgt _ => .jgt
  | .jlt _ => .jlt
  | .halt => .halt

theorem IntInstr.number_eq (i : IntInstr) : i.number = (opcodeNumber i.opcode).toNat := by
  cases i <;> rfl

theorem IntInstr.opcodeOfNumber_number (i : IntInstr) : opcodeOfNumber i.number = some i.opcode := by
  rw [i.number_eq, opcodeOfNumber_opcodeNumber]

theorem IntInstr.number_lt (i : IntInstr) : i.number < 16 :=
  i.number_eq ▸ (opcodeNumber i.opcode).isLt

theorem IntInstr.operands_length (i : IntInstr) : i.operands.length = arity i.opcode := by
  cases i <;> rfl

/-- An operand's mode number and value give it back (spec/30_encoding.md R76, R77). -/
theorem intOperand_mode_value (slot : Nat) (o : IntOperand) : intOperand slot o.mode o.value = .ok o := by
  cases o <;> rfl

section
variable {immW iw : Nat} {o1 o2 : IntOperand} (h1 : intOperand1 immW iw = .ok o1)
include h1

theorem intDecodeOne_of_slot (mk : IntOperand → IntInstr) : intDecodeOne immW iw mk = .ok (mk o1) := by
  rw [intDecodeOne, h1]
  rfl

theorem intDecodeTwo_of_slots (h2 : intOperand2 immW iw = .ok o2) (mk : IntOperand → IntOperand → IntInstr) :
    intDecodeTwo immW iw mk = .ok (mk o1 o2) := by
  rw [intDecodeTwo, h1, h2]
  rfl

end

/-- A word whose slots hold the operands of an instruction has the form of that instruction. -/
theorem intDecodeForm_of_slots {immW iw : Nat} {i : IntInstr}
    (h1 : ∀ o, i.operands[0]? = some o → intOperand1 immW iw = .ok o)
    (h2 : ∀ o, i.operands[1]? = some o → intOperand2 immW iw = .ok o) :
    intDecodeForm immW iw i.opcode = .ok i := by
  cases i with
  | blank | halt => rfl
  | mov o1 o2 | add o1 o2 | mul o1 o2 | cmp o1 o2 =>
    exact intDecodeTwo_of_slots (h1 o1 rfl) (h2 o2 rfl) _
  | jmp o | jeq o | jgt o | jlt o => exact intDecodeOne_of_slot (h1 o rfl) _

/-- Settles O52: opcode, count and both slots of the canonical word are read back. -/
theorem parametricDecodeInvertsEncode : Obligations.ParametricDecodeInvertsEncode := by
  intro c i hfit
  have hlen : i.operands.length ≤ 2 := i.operands_length ▸ arity_le_two _
  have hop := i.number_lt
  have hcnt : i.operands.length < 4 := by omega
  have hm1 := intSlotMode_lt i.operands[0]?
  have hm2 := intSlotMode_lt i.operands[1]?
  have hv1 := intSlotValue_lt (k := 0) hfit
  have hv2 := intSlotValue_lt (k := 1) hfit
  refine ⟨_, if_pos (by simpa using hfit), ?_, ?_⟩ <;> rw [intEncodeFields_eq_pack _ _ hlen]
  · exact intPack_lt hop hcnt hm1 hm2 hv1 hv2
  · rw [intDecode, intPack_op hop, i.opcodeOfNumber_number, intPack_cnt hop hcnt]
    refine (if_pos i.operands_length).trans (intDecodeForm_of_slots (fun o ho => ?_) fun o ho => ?_)
    · rw [intOperand1, intPack_m1 hop hcnt hm1, intPack_v1 hop hcnt hm1 hm2 hv1, ho]
      exact intOperand_mode_value 1 o
    · rw [intOperand2, intPack_m2 hop hcnt hm1 hm2, intPack_v2 hop hcnt hm1 hm2 hv1 hv2, ho]
      exact intOperand_mode_value 2 o

end Sys2Proof.Machine
end

section
/-!
PROOF. The parameters (spec/00_scope.md R5). The core is the parametric machine at this hardware's parameters: both
accept the same launches, and `intStep_view` is the step. For every choice of the parameters each operation keeps a
state within its widths (`FitsAt`), since a value is a field of a word, the content of a register, or wrapped.
-/

namespace Sys2Proof.Machine

/-! ### The core at its parameters -/

/-- A signed `XLEN`-bit value (spec/00_scope.md R11). -/
abbrev FitsXlen (c : Config.Params) (n : Int) : Prop := -2 ^ (c.xlen - 1) ≤ n ∧ n < 2 ^ (c.xlen - 1)

/-- The admission check for any parameters is the constraints of spec/70_reset_and_hazards.md R211. -/
theorem admittedAt_iff {c : Config.Params} {l : IntLaunchItems} :
    admittedAt c l = true ↔
      l.init.length ≤ c.maxLength ∧ (∀ n ∈ l.init, FitsXlen c n) ∧ l.imem.length ≤ c.maxLength ∧
        (∀ w ∈ l.imem, w < 2 ^ c.ilen) ∧ 0 ≤ l.budgetValue ∧ l.budgetValue < 2 ^ c.stepW := by
  simp only [admittedAt, FitsXlen, Bool.and_eq_true, decide_eq_true_eq, List.all_eq_true, and_assoc]

/-- Both machines accept the same launches: a word of the core is a word of `ILEN` bits. -/
theorem admittedAt_asNumbers (l : LaunchItems) :
    admittedAt Config.params l.asNumbers = true ↔ launchAdmitted l = true := by
  have himem : l.asNumbers.imem.length = l.imem.length := List.length_map _
  have hwords : ∀ w ∈ l.asNumbers.imem, w < 2 ^ Config.params.ilen := by
    intro w hw
    obtain ⟨iw, -, rfl⟩ := List.mem_map.mp hw
    exact iw.isLt
  rw [admittedAt_iff, launchAdmitted_iff, himem, fitsBudget_iff]
  simp only [fitsSigned_iff]
  exact ⟨fun ⟨hinit, hvals, hlen, _, hbudget⟩ => ⟨hinit, hvals, hlen, hbudget⟩,
    fun ⟨hinit, hvals, hlen, hbudget⟩ => ⟨hinit, hvals, hlen, hwords, hbudget⟩⟩

/-- Settles O51: at the core's parameters what is kept of a value is what `XLEN` bits keep. -/
theorem coreIsTheParametricMachine : Obligations.CoreIsTheParametricMachine := by
  refine ⟨fun l => ?_, fun s hb => ?_⟩
  · by_cases hadm : launchAdmitted l = true
    · refine .inl ⟨launchState l, launch_of_admitted hadm, ?_⟩
      rw [parametricLaunch, if_pos ((admittedAt_asNumbers l).mpr hadm), intView_launchState hadm]
    · exact .inr ⟨launch_of_not_admitted hadm, if_neg ((admittedAt_asNumbers l).not.mpr hadm)⟩
  · exact intStep_view wrapAt_toInt hb fun _ _ _ _ => rfl

/-! ### Values within the signed range -/

theorem fitsXlen_zero (c : Config.Params) : FitsXlen c 0 :=
  immediate_fits c (Nat.two_pow_pos c.immW)

/-- A computation that answers has answered at both stages. -/
theorem bind_eq_ok {α β : Type} {x : Except IntRaise α} {f : α → Except IntRaise β} {b : β}
    (h : x >>= f = .ok b) : ∃ a, x = .ok a ∧ f a = .ok b := by
  cases x with
  | error e => cases h
  | ok a => exact ⟨a, rfl, h⟩

/-! ### What the decoder answers -/

/-- An operand carries the number of its value field (spec/30_encoding.md R77). -/
theorem intOperand_value {slot m v : Nat} {o : IntOperand} (h : intOperand slot m v = .ok o) : o.value = v := by
  unfold intOperand at h
  split at h <;> cases h <;> rfl

section
variable {immW iw : Nat} {i : IntInstr}

theorem intDecodeOne_value_lt {mk : IntOperand → IntInstr} (hmk : ∀ o, (mk o).operands = [o])
    (h : intDecodeOne immW iw mk = .ok i) : ∀ o ∈ i.operands, o.value < 2 ^ immW := by
  obtain ⟨o1, h1, h⟩ := bind_eq_ok h
  obtain rfl := Except.ok.inj h
  rw [hmk, List.forall_mem_singleton, intOperand_value h1]
  exact Nat.mod_lt _ (Nat.two_pow_pos _)

theorem intDecodeTwo_value_lt {mk : IntOperand → IntOperand → IntInstr}
    (hmk : ∀ o1 o2, (mk o1 o2).operands = [o1, o2]) (h : intDecodeTwo immW iw mk = .ok i) :
    ∀ o ∈ i.operands, o.value < 2 ^ immW := by
  obtain ⟨o1, h1, h⟩ := bind_eq_ok h
  obtain ⟨o2, h2, h⟩ := bind_eq_ok h
  obtain rfl := Except.ok.inj h
  rw [hmk, List.forall_mem_cons, List.forall_mem_singleton, intOperand_value h1, intOperand_value h2]
  exact ⟨Nat.mod_lt _ (Nat.two_pow_pos _), Nat.mod_lt _ (Nat.two_pow_pos _)⟩

/-- Every operand of a decoded instruction carries a number of `IMM_W` bits. -/
theorem intDecode_value_lt (h : intDecode immW iw = .ok i) : ∀ o ∈ i.operands, o.value < 2 ^ immW := by
  unfold intDecode at h
  split at h
  · cases h
  · rename_i op _
    split at h
    · cases op with
      | blank | halt => obtain rfl := Except.ok.inj h; nofun
      | mov | add | mul | cmp => exact intDecodeTwo_value_lt (fun _ _ => rfl) h
      | jmp | jeq | jgt | jlt => exact intDecodeOne_value_lt (fun _ => rfl) h
    · cases h

end

/-! ### What each operation keeps -/

section
variable {c : Config.Params} {s t : IntState} (hs : FitsAt c s)
include hs

theorem FitsAt.setPc {n : Int} (hn : FitsXlen c n) : FitsAt c { s with pc := n } :=
  { hs with pc_fits := hn }

theorem FitsAt.advance : FitsAt c (s.advance (wrapAt c)) := hs.setPc (wrapAt_fits c _)

theorem FitsAt.setFlag (f : ComparisonFlag) : FitsAt c { s with flag := f } := { hs with }

theorem FitsAt.halt : FitsAt c { s with status := .halted } := { hs with }

/-- The fault entry writes the fault record only, and wraps its number. -/
theorem FitsAt.faultEntry (e : IntRaise) : FitsAt c (intFault (wrapAt c) e s) :=
  { hs with errInfo_fits := wrapAt_fits c _ }

theorem FitsAt.setReg {j : Nat} {v : Int} (hv : FitsXlen c v) :
    FitsAt c { s with regs := s.regs.set j v } := by
  refine { hs with registers_bounded := List.length_set.trans_le hs.registers_bounded, registers_fit := ?_ }
  intro w hw
  rcases List.mem_or_eq_of_mem_set hw with hw | rfl
  · exact hs.registers_fit w hw
  · exact hv

/-- Below the budget a step is counted. -/
theorem FitsAt.countStep (hne : s.steps ≠ s.budget) : FitsAt c { s with steps := s.steps + 1 } :=
  { hs with steps_bounded := Nat.lt_of_le_of_ne hs.steps_bounded hne }

/-- What a register holds is in range. -/
theorem FitsAt.fits_of_intRead {i v : Int} (h : intRead s i = .ok v) : FitsXlen c v := by
  unfold intRead at h
  split at h
  · rename_i hi
    obtain rfl := Except.ok.inj h
    have hlt : i.toNat < s.regs.length := by omega
    rw [List.getD_eq_getElem _ _ hlt]
    exact hs.registers_fit _ (List.getElem_mem hlt)
  · cases h

/-- What an operand of a decoded instruction reads is in range. -/
theorem FitsAt.fits_of_intResolveRead {o : IntOperand} {v : Int} (ho : o.value < 2 ^ c.immW)
    (h : intResolveRead s o = .ok v) : FitsXlen c v := by
  cases o with
  | imm n => obtain rfl := Except.ok.inj h; exact immediate_fits c ho
  | reg idx => exact hs.fits_of_intRead h
  | ptr idx =>
    obtain ⟨a, -, h⟩ := bind_eq_ok h
    exact hs.fits_of_intRead h

theorem FitsAt.of_intResolveWrite {o : IntOperand} {v : Int} (hv : FitsXlen c v)
    (h : intResolveWrite s v o = .ok t) : FitsAt c t := by
  rcases intResolveWrite_cases s o with ⟨e, hw⟩ | ⟨j, -, hw⟩ <;> rw [hw] at h
  · cases h
  · obtain rfl := Except.ok.inj h
    exact hs.setReg hv

/-- The end of a data instruction: the write, then the pc. -/
theorem FitsAt.of_intResolveWrite_advance {o : IntOperand} {v : Int} (hv : FitsXlen c v)
    (h : (intResolveWrite s v o >>= fun u => .ok (u.advance (wrapAt c))) = .ok t) : FitsAt c t := by
  obtain ⟨u, hu, h⟩ := bind_eq_ok h
  obtain rfl := Except.ok.inj h
  exact (hs.of_intResolveWrite hv hu).advance

theorem FitsAt.of_intReadModifyWrite {f : Int → Int → Int} {dst src : IntOperand}
    (h : intReadModifyWrite (wrapAt c) f dst src s = .ok t) : FitsAt c t := by
  obtain ⟨a, -, h⟩ := bind_eq_ok h
  obtain ⟨b, -, h⟩ := bind_eq_ok h
  exact hs.of_intResolveWrite_advance (wrapAt_fits c _) h

theorem FitsAt.of_intJump {taken : Bool} {target : IntOperand} (ht : target.value < 2 ^ c.immW)
    (h : intJump (wrapAt c) taken target s = .ok t) : FitsAt c t := by
  cases taken with
  | true =>
    obtain ⟨v, hv, h⟩ := bind_eq_ok h
    obtain rfl := Except.ok.inj h
    exact hs.setPc (hs.fits_of_intResolveRead ht hv)
  | false =>
    obtain rfl := Except.ok.inj h
    exact hs.advance

/-- Every instruction whose operands fit their fields keeps the state within the widths. -/
theorem FitsAt.of_intExec {i : IntInstr} (hi : ∀ o ∈ i.operands, o.value < 2 ^ c.immW)
    (h : intExec (wrapAt c) i s = .ok t) : FitsAt c t := by
  cases i with
  | blank => obtain rfl := Except.ok.inj h; exact hs.advance
  | mov dst src =>
    obtain ⟨v, hv, h⟩ := bind_eq_ok h
    exact hs.of_intResolveWrite_advance (hs.fits_of_intResolveRead (hi src (by simp [IntInstr.operands])) hv) h
  | add dst src | mul dst src => exact hs.of_intReadModifyWrite h
  | cmp op1 op2 =>
    obtain ⟨a, -, h⟩ := bind_eq_ok h
    obtain ⟨b, -, h⟩ := bind_eq_ok h
    obtain rfl := Except.ok.inj h
    exact (hs.setFlag _).advance
  | jmp o | jeq o | jgt o | jlt o => exact hs.of_intJump (hi o (by simp [IntInstr.operands])) h
  | halt => obtain rfl := Except.ok.inj h; exact hs.halt

theorem FitsAt.executeWord (iw : Nat) : FitsAt c (intExecuteWord c.immW (wrapAt c) iw s) := by
  unfold intExecuteWord
  split
  · exact hs.faultEntry _
  · rename_i i hd
    split
    · rename_i t he
      exact hs.of_intExec (intDecode_value_lt hd) he
    · exact hs.faultEntry _

theorem FitsAt.step : FitsAt c (parametricStep c s) := by
  unfold parametricStep intStep
  split
  · exact hs
  · exact hs
  · split
    · exact hs.halt
    · rename_i hgo
      exact (hs.countStep fun he => hgo (.inr (.inr he))).executeWord _

end

/-! ### The launch -/

theorem fitsAt_intLaunch {c : Config.Params} {l : IntLaunchItems} (h : admittedAt c l = true) :
    FitsAt c (intLaunch l) := by
  obtain ⟨hinit, hvals, himem, hwords, hnonneg, hlt⟩ := admittedAt_iff.mp h
  have hbudget : l.budgetValue.toNat < 2 ^ c.stepW := by
    rw [Int.toNat_lt hnonneg]
    exact_mod_cast hlt
  exact ⟨hinit, himem, hbudget, Nat.zero_le _, hvals, fitsXlen_zero c, fitsXlen_zero c, hwords⟩

/-- Settles O53: the constraints of the launch are the widths, and each operation keeps them. -/
theorem parametricStepKeepsTheWidths : Obligations.ParametricStepKeepsTheWidths := by
  refine ⟨fun c l s h => ?_, fun c s => FitsAt.step⟩
  obtain ⟨hadm, hlaunch⟩ := Option.ite_none_right_eq_some.mp h
  obtain rfl := Option.some.inj hlaunch
  exact fitsAt_intLaunch hadm

end Sys2Proof.Machine
end
